-- ==== Sys2Proof/Word.lean ====
section
/-! DEFINITION. The data word of the machine: every register, memory cell, ALU operand and ALU result is a byte
(spec/00_scope.md R5, XLEN = 8). -/

namespace Sys2Proof

/-- An unsigned byte, 0 to 255 (spec/00_scope.md section 5). -/
abbrev Byte := BitVec 8

end Sys2Proof
end

