-- ==== Sys2Proof/Config.lean ====
section
/-! DEFINITION. The parameters of the machine that the spec leaves open, at the values the spec uses
(spec/00_scope.md R5; spec/92_eei_decisions.md "Parameters left OPEN"). PROG and PROG_LEN, the launch input, stand in
the state (log 3). The spec leaves no value of a running machine open, so there is no free value here. -/

namespace Sys2Proof

/-- What a taken jump with target field 0 does (JUMP0_POLICY, spec/42_control_transfer.md R94). -/
inductive Jump0Policy where
  /-- Raise JumpUnderflow: the spec's value. -/
  | fault
  /-- The other candidate: the counter wraps and execution goes on at index 0. -/
  | wrap
  deriving DecidableEq, Repr

/-- FW, the width in bits of each instruction field (spec/00_scope.md R5, D3). DESIGN CHOICE 16: OPEN in the spec,
whose encodings use 16 (log 1). The encoder and decoder take the width as an argument. -/
abbrev Config.fw : Nat := 16

/-- PCW, the width in bits of the program counter (spec/00_scope.md R5, D4). DESIGN CHOICE 16: OPEN in the spec,
which uses 16 (log 2). It bounds the length of a program and the values of `pc`. -/
abbrev Config.pcw : Nat := 16

/-- The Carry flag of FLAG_RESET (spec/10_state.md R28, D6; log 5). UNVERIFIED. -/
def Config.flagResetC : Bool := false

/-- The Zero flag of FLAG_RESET (spec/10_state.md R28, D6; log 5). UNVERIFIED. -/
def Config.flagResetZ : Bool := false

/-- The Negative flag of FLAG_RESET (spec/10_state.md R28, D6; log 5). UNVERIFIED. -/
def Config.flagResetN : Bool := false

/-- JUMP0_POLICY (spec/42_control_transfer.md R94, D7; log 6). UNVERIFIED. -/
def Config.jump0Policy : Jump0Policy := .fault

end Sys2Proof
end

