-- ==== Sys2Proof/Syntax.lean ====
section
/-! DEFINITION. The instruction record, the fourteen operations and the instructions (spec/30_encoding.md R45 to R48).
Field values are natural numbers, as spec/00_scope.md R5 allows; the field width bounds them in WellFormed only. -/

namespace Sys2Proof

/-- The instruction record `{opcode, dst, lhs, rhs}` (spec/30_encoding.md R45, spec/00_scope.md R8). -/
structure Record where
  opcode : Nat
  dst : Nat
  lhs : Nat
  rhs : Nat
  deriving DecidableEq, Repr

/-- The six arithmetic sub-operations, the selects of the ALU (spec/40_alu_arithmetic_logic.md R65). -/
inductive AluOp where
  | add
  | sub
  | and
  | or
  | xor
  | not
  deriving DecidableEq, Repr

/-- The operation an opcode names: the class "arithmetic" with its sub-operation, or one of eight flat operations
(two-level decode, spec/30_encoding.md R48). -/
inductive Operation where
  | arith (op : AluOp)
  | move
  | print
  | endRun
  | store
  | load
  | jumpIfZero
  | jumpIfNotZero
  | jump
  deriving DecidableEq, Repr

/-- One constructor per row of spec/opcode_table.json, carrying exactly the fields that spec/30_encoding.md R46 says
the instruction reads, in the order of the record (an unread field has no effect, R53; log 14). -/
inductive Instr where
  /-- ADD, opcode 0: three register indices. -/
  | add (dst lhs rhs : Nat)
  /-- SUB, opcode 1: three register indices. -/
  | sub (dst lhs rhs : Nat)
  /-- AND, opcode 2: three register indices. -/
  | and (dst lhs rhs : Nat)
  /-- OR, opcode 3: three register indices. -/
  | or (dst lhs rhs : Nat)
  /-- XOR, opcode 4: three register indices. -/
  | xor (dst lhs rhs : Nat)
  /-- NOT, opcode 5: three register indices; the value of the register `rhs` is not used. -/
  | not (dst lhs rhs : Nat)
  /-- MOVE, opcode 6: a register index and an immediate. -/
  | move (dst imm : Nat)
  /-- PRINT, opcode 7: the register index in the field `dst`, which is read. -/
  | print (src : Nat)
  /-- END, opcode 8: no operand. -/
  | endRun
  /-- STORE, opcode 9: a data-memory address (the field `dst`) and a register index (the field `lhs`). -/
  | store (addr src : Nat)
  /-- LOAD, opcode 10: a register index (the field `dst`) and a data-memory address (the field `lhs`). -/
  | load (dst addr : Nat)
  /-- JUMP-IF-ZERO, opcode 11: the target index (the field `lhs`). -/
  | jumpIfZero (target : Nat)
  /-- JUMP-IF-NOT-ZERO, opcode 12: the target index (the field `lhs`). -/
  | jumpIfNotZero (target : Nat)
  /-- JUMP, opcode 13: the target index (the field `lhs`). -/
  | jump (target : Nat)
  deriving DecidableEq, Repr

end Sys2Proof
end

