-- ==== Sys2Proof/WellFormed.lean ====
section
/-! DEFINITION. Well-formed records, instructions and programs (spec/30_encoding.md R64), and the stronger check of
operand ranges that R64 offers a model. -/

namespace Sys2Proof

/-- The value has an encoding in a field of `fw` bits. -/
def fieldFits (fw v : Nat) : Bool := decide (v < 2 ^ fw)

/-- Every field of the instruction fits in `fw` bits (spec/30_encoding.md R50, R64). -/
def Instr.wellFormed (fw : Nat) : Instr → Bool
  | .add d l r | .sub d l r | .and d l r | .or d l r | .xor d l r | .not d l r =>
      fieldFits fw d && fieldFits fw l && fieldFits fw r
  | .move d v => fieldFits fw d && fieldFits fw v
  | .print d => fieldFits fw d
  | .endRun => true
  | .store a l => fieldFits fw a && fieldFits fw l
  | .load d a => fieldFits fw d && fieldFits fw a
  | .jumpIfZero t | .jumpIfNotZero t | .jump t => fieldFits fw t

/-- The record has an opcode up to 13 and four fields of `fw` bits (spec/30_encoding.md R64). -/
def Record.wellFormed (fw : Nat) (r : Record) : Bool :=
  decide (r.opcode ≤ 13) && fieldFits fw r.opcode && fieldFits fw r.dst && fieldFits fw r.lhs && fieldFits fw r.rhs

/-- A program is well-formed when it has at most 2^PCW - 1 records, each of them well-formed
(spec/30_encoding.md R64). Operand ranges are not asked for: they are checked when the instruction executes. -/
def programWellFormed (fw pcw : Nat) (p : List Record) : Bool :=
  decide (p.length ≤ 2 ^ pcw - 1) && p.all (Record.wellFormed fw)

/-- The stronger static check on one instruction: every register field at most 7, every address field at most 255,
every target field at least 1 (spec/30_encoding.md R64, last sentence). -/
def Instr.rangesOk : Instr → Bool
  | .add d l r | .sub d l r | .and d l r | .or d l r | .xor d l r | .not d l r =>
      decide (d ≤ 7) && decide (l ≤ 7) && decide (r ≤ 7)
  | .move d _ => decide (d ≤ 7)
  | .print d => decide (d ≤ 7)
  | .endRun => true
  | .store a l => decide (a ≤ 255) && decide (l ≤ 7)
  | .load d a => decide (d ≤ 7) && decide (a ≤ 255)
  | .jumpIfZero t | .jumpIfNotZero t | .jump t => decide (1 ≤ t)

end Sys2Proof
end

