-- ==== Sys2Proof/Decode.lean ====
section
/-! DEFINITION. Decoding of records and of binary words, and after it the encoder (spec/30_encoding.md R46 to R54).
The opcode numbers stand in one definition, `Operation.table` (R47). -/

namespace Sys2Proof

/-- Why a record is no instruction: its opcode value is above 13 (spec/30_encoding.md R54). Nothing else is rejected
(R55). Safe: the machine then raises IllegalOpcode. -/
inductive DecodeError where
  | illegalOpcode (v : Nat)
  deriving DecidableEq, Repr

/-- The operations in the order of their opcode numbers 0 to 13 (spec/30_encoding.md R47, D2; UNVERIFIED, log 9). -/
def Operation.table : List Operation :=
  [.arith .add, .arith .sub, .arith .and, .arith .or, .arith .xor, .arith .not,
   .move, .print, .endRun, .store, .load, .jumpIfZero, .jumpIfNotZero, .jump]

/-- The operation an opcode value names; 14 and above name none (spec/30_encoding.md R47, R54). -/
def Operation.ofOpcode (v : Nat) : Except DecodeError Operation :=
  match Operation.table[v]? with
  | some o => .ok o
  | none => .error (.illegalOpcode v)

/-- What each field means under each operation (spec/30_encoding.md R46); the fields marked `-` there are dropped. -/
def Operation.toInstr (o : Operation) (r : Record) : Instr :=
  match o with
  | .arith .add => .add r.dst r.lhs r.rhs
  | .arith .sub => .sub r.dst r.lhs r.rhs
  | .arith .and => .and r.dst r.lhs r.rhs
  | .arith .or => .or r.dst r.lhs r.rhs
  | .arith .xor => .xor r.dst r.lhs r.rhs
  | .arith .not => .not r.dst r.lhs r.rhs
  | .move => .move r.dst r.lhs
  | .print => .print r.dst
  | .endRun => .endRun
  | .store => .store r.dst r.lhs
  | .load => .load r.dst r.lhs
  | .jumpIfZero => .jumpIfZero r.lhs
  | .jumpIfNotZero => .jumpIfNotZero r.lhs
  | .jump => .jump r.lhs

/-- Decode of a record: only the opcode decides the operation, the other fields are passed on unchanged
(spec/30_encoding.md R48). Total; the one rejection is by name. -/
def Record.decode (r : Record) : Except DecodeError Instr :=
  match Operation.ofOpcode r.opcode with
  | .ok o => .ok (o.toInstr r)
  | .error e => .error e

/-- Field number `k` of a word of `fw`-bit fields, counted from the least significant one. -/
def wordField (fw w k : Nat) : Nat := w / 2 ^ (k * fw) % 2 ^ fw

/-- The record a binary word spells: `opcode || dst || lhs || rhs`, opcode most significant
(spec/30_encoding.md R49, D3). Every bit pattern yields four fields. -/
def Record.ofWord (fw w : Nat) : Record :=
  { opcode := wordField fw w 3, dst := wordField fw w 2, lhs := wordField fw w 1, rhs := wordField fw w 0 }

/-- The instruction a binary word of four `fw`-bit fields spells. -/
def decodeWord (fw w : Nat) : Except DecodeError Instr := (Record.ofWord fw w).decode

/-- The decoder at this machine's field width. -/
def decode (w : Nat) : Except DecodeError Instr := decodeWord Config.fw w

/-- The instruction word inside a number of the host's: the low `nbits` bits, of which one word has 4 x FW. The one
word of an instruction is its first and only word, so the table's bit numbers are the word's (log 17). -/
def tableWord (nbits w : Nat) : Nat := w % 2 ^ nbits % 2 ^ (4 * Config.fw)

/-- The instruction the decoder reads from a row's word, numbered as spec/opcode_table.json numbers it. -/
def decodeTableWord (nbits w : Nat) : Option Instr :=
  match decode (tableWord nbits w) with
  | .ok i => some i
  | .error _ => none

/-! The encoder. -/

/-- The operation of an instruction. -/
def Instr.operation : Instr → Operation
  | .add _ _ _ => .arith .add
  | .sub _ _ _ => .arith .sub
  | .and _ _ _ => .arith .and
  | .or _ _ _ => .arith .or
  | .xor _ _ _ => .arith .xor
  | .not _ _ _ => .arith .not
  | .move _ _ => .move
  | .print _ => .print
  | .endRun => .endRun
  | .store _ _ => .store
  | .load _ _ => .load
  | .jumpIfZero _ => .jumpIfZero
  | .jumpIfNotZero _ => .jumpIfNotZero
  | .jump _ => .jump

/-- The opcode number of an operation: its place in the table (spec/30_encoding.md R47). -/
def Operation.opcode (o : Operation) : Nat := Operation.table.idxOf o

/-- The select given to the ALU is the opcode value itself (spec/30_encoding.md R56). -/
def AluOp.select (op : AluOp) : Nat := (Operation.arith op).opcode

/-- The fields `dst`, `lhs`, `rhs` of an instruction, 0 where it reads none (spec/30_encoding.md R46, R53). -/
def Instr.fields : Instr → Nat × Nat × Nat
  | .add d l r | .sub d l r | .and d l r | .or d l r | .xor d l r | .not d l r => (d, l, r)
  | .move d v => (d, v, 0)
  | .print d => (d, 0, 0)
  | .endRun => (0, 0, 0)
  | .store a l => (a, l, 0)
  | .load d a => (d, a, 0)
  | .jumpIfZero t | .jumpIfNotZero t | .jump t => (0, t, 0)

/-- The canonical record of an instruction (spec/30_encoding.md R53). -/
def Instr.toRecord (i : Instr) : Record :=
  { opcode := i.operation.opcode, dst := i.fields.1, lhs := i.fields.2.1, rhs := i.fields.2.2 }

/-- The binary word of a record whose fields fit in `fw` bits (spec/30_encoding.md R49). -/
def Record.toWord (fw : Nat) (r : Record) : Nat :=
  ((r.opcode * 2 ^ fw + r.dst) * 2 ^ fw + r.lhs) * 2 ^ fw + r.rhs

/-- The binary word of a well-formed instruction with `fw`-bit fields. -/
def encodeWord (fw : Nat) (i : Instr) : Nat := i.toRecord.toWord fw

/-- The encoder at this machine's field width: one 64-bit word. -/
def encode (i : Instr) : Nat := encodeWord Config.fw i

/-- The stronger static check on a program: every record decodes and its operands are in range
(spec/30_encoding.md R64, last sentence). -/
def programRangesOk (p : List Record) : Bool :=
  p.all fun r => match r.decode with
    | .ok i => i.rangesOk
    | .error _ => false

end Sys2Proof
end

