-- ==== Sys2Proof/Machine/State.lean ====
section
/-! DEFINITION. The state of the machine, its faults and refusals, and the state after reset
(spec/10_state.md R28; spec/60_exceptions.md R105). -/

namespace Sys2Proof.Machine

/-- The four faults of spec/60_exceptions.md R105, each with the one value it records. A fault is the value of the run
status `faulted` of a NEXT state (R106, R112): no step answers `Host.Outcome.fault` (log 8). -/
inductive Fault where
  /-- OutOfRange(register, i), code 1. Raised by ADD, SUB, AND, OR, XOR, NOT, MOVE, PRINT, STORE and LOAD when a field
  used as a register index holds `i` above 7 (R107). Safe: the spec's own check. -/
  | outOfRangeRegister (i : Nat)
  /-- OutOfRange(memory, a), code 2. Raised by STORE and LOAD when a field used as a data-memory address holds `a`
  above 255 (R108). Safe: the spec's own check. -/
  | outOfRangeMemory (a : Nat)
  /-- JumpUnderflow(k), code 3. Raised by the jump at index `k` when it is taken and its target field is 0 (R109).
  Safe: the source leaves the behaviour open and the spec makes it terminal (log 6). -/
  | jumpUnderflow (k : Nat)
  /-- IllegalOpcode(v), code 4. Raised by the decoder on a record whose opcode field holds `v` above 13 (R110). Safe:
  a well-formed program never raises it (log 10). -/
  | illegalOpcode (v : Nat)
  deriving DecidableEq, Repr

/-- Why a step gives no meaning. No step of this model answers a refusal: every instruction has its meaning. -/
inductive Refusal where
  /-- Raised by an arm of exec whose instruction has no meaning yet; no arm does. Safe. -/
  | notModelled (mnemonic : String)
  deriving DecidableEq, Repr

/-- The three flags, Carry, Zero, Negative (spec/10_state.md R18). -/
structure Flags where
  c : Bool
  z : Bool
  n : Bool
  deriving DecidableEq, Repr

/-- One event of the output stream (spec/10_state.md R25). -/
inductive OutEvent where
  /-- `Out(v)`, from PRINT. -/
  | out (v : Byte)
  /-- `HaltNotice`, from END. -/
  | haltNotice
  deriving DecidableEq, Repr

/-- The run status (spec/10_state.md R24). -/
inductive Status where
  | running
  | halted
  | exhausted
  | faulted (f : Fault)
  deriving DecidableEq, Repr

/-- Data memory as address and byte pairs in canonical form (`Memory.wf`): addresses strictly rising, no entry equal to
what an unlisted address reads as. -/
abbrev Memory := List Host.Cell

/-- The complete state of the block (spec/10_state.md R28), and the launch input. -/
structure State where
  /-- The general registers `x[0]` to `x[7]` (R10). -/
  regs : Vector Byte 8
  /-- The data memory `M[0]` to `M[255]` (R23, spec/20_memory.md R30). -/
  mem : Memory
  /-- The program counter, an instruction index, 0 to 2^PCW - 1 (R15; log 2). -/
  pc : Nat
  /-- The flags (R18). -/
  flags : Flags
  /-- The run status (R24). -/
  status : Status
  /-- The output stream, oldest event first (R25). -/
  output : List OutEvent
  /-- PROG, the launch input (R26): no step changes it; PROG_LEN is its length (log 3). -/
  prog : List Record
  deriving DecidableEq, Repr

/-- The three outcomes of an instruction and of a step. -/
abbrev Result := Host.Outcome State Fault Refusal

/-- The state right after reset, for given reset flags and a given program in the instruction space
(spec/10_state.md R28; spec/70_reset_and_hazards.md R125, R127). -/
def State.resetWith (flags : Flags) (prog : List Record) : State :=
  { regs := Vector.replicate 8 0, mem := [], pc := 0, flags := flags, status := .running, output := [], prog := prog }

/-- FLAG_RESET (spec/00_scope.md R5). -/
def Flags.reset : Flags := { c := Config.flagResetC, z := Config.flagResetZ, n := Config.flagResetN }

/-- The machine right after reset, with no program placed in the instruction space (log 3). -/
def State.reset : State := State.resetWith Flags.reset []

end Sys2Proof.Machine
end

