-- ==== Sys2Proof/Machine/Ops.lean ====
section
/-! DEFINITION. The named operations over memory, registers, program counter, output and status, the fetch, and the
raising of a fault (spec/00_scope.md section 5). There is no return from a fault: no handler ever runs and only a reset
leaves a final status (spec/60_exceptions.md R106, R115, R116). -/

namespace Sys2Proof.Machine

/-- What a data-memory cell that no entry lists reads as: 0, the reset contents (spec/10_state.md R28; log 22). -/
def Memory.unlisted : Byte := 0

/-- The canonical form: addresses strictly rising and below 256, no entry equal to an unlisted cell. -/
abbrev Memory.wf (m : Memory) : Prop :=
  m.Pairwise (fun c c' => c.1 < c'.1) ∧ ∀ c ∈ m, c.1 < 256 ∧ c.2 ≠ Memory.unlisted

/-- The byte held at an address. -/
def Memory.read : Memory → Nat → Byte
  | [], _ => Memory.unlisted
  | (b, v) :: m, a => if b = a then v else Memory.read m a

/-- Put an entry before the rest, unless it says what an unlisted cell reads as. -/
def Memory.consCell (a : Nat) (v : Byte) (m : Memory) : Memory :=
  if v = Memory.unlisted then m else (a, v) :: m

/-- Set the byte at an address, keeping the canonical form. -/
def Memory.write : Memory → Nat → Byte → Memory
  | [], a, v => Memory.consCell a v []
  | (b, u) :: m, a, v =>
      if a < b then Memory.consCell a v ((b, u) :: m)
      else if a = b then Memory.consCell a v m
      else (b, u) :: Memory.write m a v

/-- `x[i]`: read general register `i`. No register is hardwired (spec/10_state.md R11). -/
def State.reg (s : State) (i : Fin 8) : Byte := s.regs[i]

/-- `x[i] <- v` (spec/00_scope.md section 5). -/
def State.setReg (s : State) (i : Fin 8) (v : Byte) : State := { s with regs := s.regs.set i v }

/-- `MemRead(a, 1)` (spec/20_memory.md R30). -/
def State.memRead (s : State) (a : Fin 256) : Byte := s.mem.read a

/-- `MemWrite(a, 1, v)` (spec/20_memory.md R30). -/
def State.memWrite (s : State) (a : Fin 256) (v : Byte) : State := { s with mem := s.mem.write a v }

/-- All three flags are overwritten at once (spec/40_alu_arithmetic_logic.md R71). -/
def State.setFlags (s : State) (f : Flags) : State := { s with flags := f }

/-- `pc <- t`. -/
def State.setPc (s : State) (t : Nat) : State := { s with pc := t }

/-- The increment after an instruction that neither halts nor faults (spec/42_control_transfer.md R92). Under the
bound on PROG_LEN it never wraps (spec/10_state.md R17; log 2). -/
def State.advance (s : State) : State := s.setPc (s.pc + 1)

/-- Append one event to the output stream (spec/10_state.md R25). -/
def State.emit (s : State) (e : OutEvent) : State := { s with output := s.output ++ [e] }

/-- Set the run status. -/
def State.setStatus (s : State) (t : Status) : State := { s with status := t }

/-- Raising a fault: the status becomes Faulted with the kind and its one value, and nothing else changes
(spec/60_exceptions.md R106, R112, R113). -/
def State.raise (s : State) (f : Fault) : State := s.setStatus (.faulted f)

/-- The end of a run by exhaustion: only the status changes (spec/42_control_transfer.md R91). -/
def State.exhaust (s : State) : State := s.setStatus .exhausted

/-- The fetch: `PROG[pc]`, or nothing when `pc >= PROG_LEN` (spec/20_memory.md R36, spec/42_control_transfer.md R90). -/
def State.fetch (s : State) : Option Record := s.prog[s.pc]?

/-- The fault the decoder raises on a record that is no instruction (spec/60_exceptions.md R110). -/
def faultOfDecode : DecodeError → Fault
  | .illegalOpcode v => .illegalOpcode v

/-- The code of a fault (spec/60_exceptions.md R105, D14). -/
def Fault.code : Fault → Nat
  | .outOfRangeRegister _ => 1
  | .outOfRangeMemory _ => 2
  | .jumpUnderflow _ => 3
  | .illegalOpcode _ => 4

/-- The one value a fault records (spec/60_exceptions.md R105, R113). -/
def Fault.info : Fault → Nat
  | .outOfRangeRegister i => i
  | .outOfRangeMemory a => a
  | .jumpUnderflow k => k
  | .illegalOpcode v => v

end Sys2Proof.Machine
end

