-- ==== Sys2Proof/Machine/Cycle.lean ====
section
/-! DEFINITION. The instruction cycle around the meanings (spec/42_control_transfer.md R90, R91), and the placing of one
word where the next step fetches. -/

namespace Sys2Proof.Machine

/-- One step (R90): nothing when the status is final; Exhausted when `pc >= PROG_LEN`; IllegalOpcode when the fetched
record is no instruction; else the instruction `run` gives a meaning to. -/
def cycle (run : Instr → State → Result) (s : State) : Result :=
  match s.status with
  | .running =>
    match s.fetch with
    | none => .next s.exhaust
    | some r =>
      match r.decode with
      | .ok i => run i s
      | .error e => .next (s.raise (faultOfDecode e))
  | .halted | .exhausted | .faulted _ => .next s

/-- What fills the indices below `pc` when a record is placed beyond the end of the program: END (log 17). -/
def fillerRecord : Record := Instr.toRecord .endRun

/-- A program with the record `r` at index `k`, every other record of it unchanged (log 17). -/
def placeRecord (p : List Record) (k : Nat) (r : Record) : List Record :=
  if k < p.length then p.set k r else p ++ List.replicate (k - p.length) fillerRecord ++ [r]

/-- The state with the record a word spells at the next index to be fetched, Running so that it is fetched (log 17). -/
def State.placeWord (s : State) (nbits w : Nat) : State :=
  { s with prog := placeRecord s.prog s.pc (Record.ofWord Config.fw (tableWord nbits w)), status := .running }

end Sys2Proof.Machine
end

