-- ==== Sys2Proof/Machine/Operands.lean ====
section
/-! DEFINITION. The operand forms: register index, data-memory address, immediate, jump target
(spec/30_encoding.md R46, R51, R52). A check comes before the effects that need it, and the first check that fails
decides the fault (spec/60_exceptions.md R111). -/

namespace Sys2Proof.Machine

/-- A field used as a register index: above 7 it raises OutOfRange(register) and is never reduced modulo 8
(spec/10_state.md R14, spec/60_exceptions.md R107). -/
def State.checkReg (s : State) (i : Nat) (k : Fin 8 → Result) : Result :=
  if h : i < 8 then k ⟨i, h⟩ else .next (s.raise (.outOfRangeRegister i))

/-- A field used as a data-memory address: above 255 it raises OutOfRange(memory) and is never reduced modulo 256
(spec/20_memory.md R32, spec/60_exceptions.md R108). -/
def State.checkAddr (s : State) (a : Nat) (k : Fin 256 → Result) : Result :=
  if h : a < 256 then k ⟨a, h⟩ else .next (s.raise (.outOfRangeMemory a))

/-- `trunc_8(v)`: the MOVE immediate, the low 8 bits of an unsigned field (spec/30_encoding.md R51). -/
def trunc8 (v : Nat) : Byte := BitVec.ofNat 8 v

/-- A taken jump to the target field `t`: the Control Unit stores `t - 1` and the increment makes it `t`
(spec/42_control_transfer.md R93). With `t = 0` it raises JumpUnderflow at the index of the jump, or, under the other
policy, the counter 2^PCW - 1 wraps to 0 (R94). -/
def State.jumpTo (s : State) (policy : Jump0Policy) (t : Nat) : Result :=
  if t = 0 then
    match policy with
    | .fault => .next (s.raise (.jumpUnderflow s.pc))
    | .wrap => .next (s.setPc ((2 ^ Config.pcw - 1 + 1) % 2 ^ Config.pcw))
  else .next (s.setPc (t - 1)).advance

/-- A jump with a condition: taken, or "otherwise no-op" and then the increment; a jump that is not taken does not
look at its target (spec/42_control_transfer.md R94, R96, R97). -/
def State.jumpIf (s : State) (taken : Bool) (t : Nat) : Result :=
  if taken then s.jumpTo Config.jump0Policy t else .next s.advance

end Sys2Proof.Machine
end

