-- ==== Sys2Proof/Machine/Flags.lean ====
section
/-! DEFINITION. The ALU: result byte and flags of each of the six operations, from exact integers narrowed at the end
(spec/40_alu_arithmetic_logic.md R65 to R71). It reads no state and no old flag. -/

namespace Sys2Proof.Machine

/-- The result byte `y` (R66 to R69). -/
def aluResult (op : AluOp) (a b : Byte) : Byte :=
  match op with
  | .add => trunc8 (a.toNat + b.toNat)
  | .sub => BitVec.ofInt 8 ((a.toNat : Int) - (b.toNat : Int))
  | .and => a &&& b
  | .or => a ||| b
  | .xor => a ^^^ b
  | .not => trunc8 (255 - a.toNat)

/-- The Carry flag: unsigned overflow of ADD, borrow of SUB, false otherwise (R66 to R69). -/
def aluCarry (op : AluOp) (a b : Byte) : Bool :=
  match op with
  | .add => decide (256 ≤ a.toNat + b.toNat)
  | .sub => decide (a.toNat < b.toNat)
  | .and | .or | .xor | .not => false

/-- The Zero flag of a result byte (R70). -/
def zeroFlag (y : Byte) : Bool := decide (y = 0)

/-- The Negative flag of a result byte (R70). -/
def negativeFlag (y : Byte) : Bool := decide (127 < y.toNat)

/-- The three flags of an evaluation (R70, R71, R81). -/
def aluFlags (op : AluOp) (a b : Byte) : Flags :=
  { c := aluCarry op a b, z := zeroFlag (aluResult op a b), n := negativeFlag (aluResult op a b) }

end Sys2Proof.Machine
end

