-- ==== Sys2Proof/Machine/Arith.lean ====
section
/-! DEFINITION. The six arithmetic and logic instructions (spec/40_alu_arithmetic_logic.md R74 to R80). -/

namespace Sys2Proof.Machine

/-- The common template (R74): checks in the order `lhs`, `rhs`, `dst`, both reads, then the write. -/
def execArith (op : AluOp) (d l r : Nat) (s : State) : Result :=
  s.checkReg l fun l => s.checkReg r fun r => s.checkReg d fun d =>
    .next ((s.setFlags (aluFlags op (s.reg l) (s.reg r))).setReg d (aluResult op (s.reg l) (s.reg r))).advance

/-- ADD (R75). -/
def execAdd (d l r : Nat) (s : State) : Result := execArith .add d l r s

/-- SUB (R76). -/
def execSub (d l r : Nat) (s : State) : Result := execArith .sub d l r s

/-- AND (R77). -/
def execAnd (d l r : Nat) (s : State) : Result := execArith .and d l r s

/-- OR (R78). -/
def execOr (d l r : Nat) (s : State) : Result := execArith .or d l r s

/-- XOR (R79). -/
def execXor (d l r : Nat) (s : State) : Result := execArith .xor d l r s

/-- NOT (R80): the register at `rhs` is read and its index checked, its value has no effect (log 15). -/
def execNot (d l r : Nat) (s : State) : Result := execArith .not d l r s

end Sys2Proof.Machine
end

