-- ==== Sys2Proof/Machine/Control.lean ====
section
/-! DEFINITION. The three jumps (spec/42_control_transfer.md R95 to R97). -/

namespace Sys2Proof.Machine

/-- JUMP (R95). -/
def execJump (t : Nat) (s : State) : Result := s.jumpIf true t

/-- JUMP-IF-ZERO (R96): taken when Z is true. -/
def execJumpIfZero (t : Nat) (s : State) : Result := s.jumpIf s.flags.z t

/-- JUMP-IF-NOT-ZERO (R97): taken when Z is false. -/
def execJumpIfNotZero (t : Nat) (s : State) : Result := s.jumpIf (!s.flags.z) t

end Sys2Proof.Machine
end

