-- ==== Sys2Proof/Machine/DataMove.lean ====
section
/-! DEFINITION. MOVE, STORE and LOAD (spec/41_data_movement.md R85 to R87). None writes a flag. -/

namespace Sys2Proof.Machine

/-- MOVE (R85): the immediate is reduced modulo 256 and not checked. -/
def execMove (d v : Nat) (s : State) : Result :=
  s.checkReg d fun d => .next (s.setReg d (trunc8 v)).advance

/-- STORE (R86): the register is checked before the address. -/
def execStore (a l : Nat) (s : State) : Result :=
  s.checkReg l fun l => s.checkAddr a fun a => .next (s.memWrite a (s.reg l)).advance

/-- LOAD (R87): the address is checked before the register. -/
def execLoad (d a : Nat) (s : State) : Result :=
  s.checkAddr a fun a => s.checkReg d fun d => .next (s.setReg d (s.memRead a)).advance

end Sys2Proof.Machine
end

