-- ==== Sys2Proof/Machine/Output.lean ====
section
/-! DEFINITION. PRINT and END (spec/43_output_and_halt.md R100, R101). -/

namespace Sys2Proof.Machine

/-- PRINT (R100): the source register is named by the field `dst`. -/
def execPrint (d : Nat) (s : State) : Result :=
  s.checkReg d fun d => .next (s.emit (.out (s.reg d))).advance

/-- END (R101): the notice, the status, and no increment: `pc` stays at the index of the END (log 12). -/
def execEndRun (s : State) : Result := .next ((s.emit .haltNotice).setStatus .halted)

end Sys2Proof.Machine
end

