-- ==== Sys2Proof/Machine/Dispatch.lean ====
section
/-! DEFINITION. The dispatch of an instruction to its meaning (spec/42_control_transfer.md R90). -/

namespace Sys2Proof.Machine

/-- One arm per instruction. -/
def exec (i : Instr) (s : State) : Host.Outcome State Fault Refusal :=
  match i with
  | .add d l r => Sys2Proof.Machine.execAdd d l r s
  | .sub d l r => Sys2Proof.Machine.execSub d l r s
  | .and d l r => Sys2Proof.Machine.execAnd d l r s
  | .or d l r => Sys2Proof.Machine.execOr d l r s
  | .xor d l r => Sys2Proof.Machine.execXor d l r s
  | .not d l r => Sys2Proof.Machine.execNot d l r s
  | .move d v => Sys2Proof.Machine.execMove d v s
  | .print d => Sys2Proof.Machine.execPrint d s
  | .endRun => Sys2Proof.Machine.execEndRun s
  | .store a l => Sys2Proof.Machine.execStore a l s
  | .load d a => Sys2Proof.Machine.execLoad d a s
  | .jumpIfZero t => Sys2Proof.Machine.execJumpIfZero t s
  | .jumpIfNotZero t => Sys2Proof.Machine.execJumpIfNotZero t s
  | .jump t => Sys2Proof.Machine.execJump t s

end Sys2Proof.Machine
end

