-- ==== Sys2Proof/Machine/Step.lean ====
section
/-! DEFINITION. The step of the machine, the only transition it has (spec/42_control_transfer.md R90). -/

namespace Sys2Proof.Machine

/-- One step: the instruction cycle around the fourteen meanings. -/
def step (s : State) : Host.Outcome State Fault Refusal := cycle exec s

/-- The state whose very next step fetches and runs the instruction of that word (log 17). -/
def State.withFetchWord (s : State) (nbits w : Nat) : State := s.placeWord nbits w

end Sys2Proof.Machine
end

