-- ==== Sys2Proof/Machine/Loader.lean ====
section
/-! DEFINITION. The text program format (spec/30_encoding.md R58 to R60): lines of four base-2 numerals. The Loader is
outside the block (spec/00_scope.md R4); the spec transcribes its format, and it is modelled here as a function from
text to a program, apart from the machine. Text whose reading the spec does not state is refused (log 19). -/

namespace Sys2Proof.Loader

/-- Why a text is refused before the run starts (spec/30_encoding.md R60). -/
inductive LoadError where
  /-- A line that is not four base-2 numerals separated by spaces. -/
  | malformedLine
  /-- A line whose opcode value is above 13 (spec/30_encoding.md R54). -/
  | unrecognizedOpcode (v : Nat)
  /-- A field that has no encoding in FW bits (spec/30_encoding.md R60, D16). -/
  | fieldTooWide (v : Nat)
  /-- More than 2^PCW - 1 records (spec/00_scope.md R5, D4). -/
  | programTooLong
  deriving DecidableEq, Repr

/-- The pieces of a text between the separators `sep`. -/
def splitOn (sep : Char) : List Char → List (List Char)
  | [] => [[]]
  | c :: cs =>
    match splitOn sep cs with
    | [] => [[c]]
    | p :: ps => if c = sep then [] :: p :: ps else (c :: p) :: ps

/-- An unsigned base-2 numeral, most significant digit first, read after the digits already worth `acc`. -/
def numeral (acc : Nat) : List Char → Option Nat
  | [] => some acc
  | '0' :: cs => numeral (2 * acc) cs
  | '1' :: cs => numeral (2 * acc + 1) cs
  | _ :: _ => none

/-- The numerals of a line: runs of spaces separate them; a space before the first or after the last is not stated in
the spec and refused (log 19). -/
def tokens (line : List Char) : Option (List (List Char)) :=
  let ps := splitOn ' ' line
  if ps.head? = some [] ∨ ps.getLast? = some [] then none else some (ps.filter (· ≠ []))

/-- A field of a record must fit in `fw` bits. -/
def checkRecord (fw : Nat) (r : Record) : Except LoadError Record :=
  if 13 < r.opcode then .error (.unrecognizedOpcode r.opcode)
  else if !fieldFits fw r.opcode then .error (.fieldTooWide r.opcode)
  else if !fieldFits fw r.dst then .error (.fieldTooWide r.dst)
  else if !fieldFits fw r.lhs then .error (.fieldTooWide r.lhs)
  else if !fieldFits fw r.rhs then .error (.fieldTooWide r.rhs)
  else .ok r

/-- One instruction line: exactly four numerals, opcode, dst, lhs, rhs (spec/30_encoding.md R58). -/
def recordOfLine (fw : Nat) (line : List Char) : Except LoadError Record :=
  match tokens line with
  | some [o, d, l, r] =>
    match numeral 0 o, numeral 0 d, numeral 0 l, numeral 0 r with
    | some o, some d, some l, some r => checkRecord fw ⟨o, d, l, r⟩
    | _, _, _, _ => .error .malformedLine
  | _ => .error .malformedLine

/-- An empty line or a line beginning with `--` is skipped and takes no index (spec/30_encoding.md R59). -/
def skipped : List Char → Bool
  | [] => true
  | '-' :: '-' :: _ => true
  | _ => false

/-- The records of the instruction lines, in order: line k of them is `PROG[k]` (spec/30_encoding.md R58). The first
bad line aborts (R60). -/
def recordsOfLines (fw : Nat) : List (List Char) → Except LoadError (List Record)
  | [] => .ok []
  | line :: rest =>
    if skipped line then recordsOfLines fw rest
    else
      match recordOfLine fw line with
      | .error e => .error e
      | .ok r =>
        match recordsOfLines fw rest with
        | .error e => .error e
        | .ok p => .ok (r :: p)

/-- The program a text spells, or why it is refused as a whole (spec/30_encoding.md R58 to R60). -/
def load (fw pcw : Nat) (text : List Char) : Except LoadError (List Record) :=
  match recordsOfLines fw (splitOn '\n' text) with
  | .error e => .error e
  | .ok p => if p.length ≤ 2 ^ pcw - 1 then .ok p else .error .programTooLong

/-- `n` in `w` base-2 digits, most significant first; the format fixes no number of digits (spec/30_encoding.md R58). -/
def digits : Nat → Nat → List Char
  | 0, _ => []
  | w + 1, n => digits w (n / 2) ++ [if n % 2 = 1 then '1' else '0']

/-- The line of a record, each field in `fw` digits. -/
def lineOfRecord (fw : Nat) (r : Record) : List Char :=
  digits fw r.opcode ++ [' '] ++ digits fw r.dst ++ [' '] ++ digits fw r.lhs ++ [' '] ++ digits fw r.rhs

/-- A text of a program, one record a line. -/
def textOfProgram (fw : Nat) : List Record → List Char
  | [] => []
  | r :: p => lineOfRecord fw r ++ '\n' :: textOfProgram fw p

end Sys2Proof.Loader
end

