-- ==== Sys2Proof/Machine/Interface.lean ====
section
/-! DEFINITION. What the environment can do between two instructions: read, reset, and place a program before the first
step (spec/00_scope.md R7; spec/10_state.md R27; spec/70_reset_and_hazards.md R125, R127, R128). -/

namespace Sys2Proof.Machine

/-- What the inspection interface shows (spec/10_state.md R27); the flags by D18 (log 20). -/
structure Snapshot where
  regs : Vector Byte 8
  mem : List Byte
  pc : Nat
  flags : Flags
  deriving DecidableEq, Repr

/-- The snapshot: all registers, the 256 memory cells in address order, the program counter, the flags. -/
def State.inspect (s : State) : Snapshot :=
  { regs := s.regs, mem := (List.range 256).map s.mem.read, pc := s.pc, flags := s.flags }

/-- A reset between two instructions: every piece of state at its reset value, PROG kept
(spec/70_reset_and_hazards.md R125, R127; log 21). -/
def State.resetNow (s : State) : State := State.resetWith Flags.reset s.prog

/-- The environment places a program in the instruction space and resets the block
(spec/70_reset_and_hazards.md R127, R128; log 3). -/
def State.load (p : List Record) : State := State.resetWith Flags.reset p

end Sys2Proof.Machine
end

