-- ==== Sys2Proof/Safety.lean ====
section
/-! DEFINITION. What counts as a safe run, in the terms the statements use (spec/60_exceptions.md R106, R124). -/

namespace Sys2Proof.Machine

/-- The instruction the next step runs, if it runs one. -/
def State.nextInstr (s : State) : Option Instr :=
  match s.status with
  | .running =>
    match s.fetch with
    | some r => match r.decode with
      | .ok i => some i
      | .error _ => none
    | none => none
  | .halted | .exhausted | .faulted _ => none

/-- A state that no fault has ended (spec/60_exceptions.md R106). -/
def State.notFaulted (s : State) : Prop := ∀ f, s.status ≠ .faulted f

/-- The state after `k` steps. No step of this machine stops with a fault or a refusal outcome (statement
`StepAlwaysAnswersAState`), so a run of any length answers a state. -/
def State.runsTo (s : State) (k : Nat) (t : State) : Prop := Host.Core.run Sys2Proof.core k s = .next t

/-- None of the next `k` steps from `s` runs a STORE to address `m` (spec/41_data_movement.md R89). -/
def State.noStoreTo (m : Nat) : Nat → State → Prop
  | 0, _ => True
  | k + 1, s => (∀ r, s.nextInstr ≠ some (.store m r)) ∧ ∀ t, step s = .next t → State.noStoreTo m k t

/-- What a fault recorded in a state says of it: the recorded index or address was out of range, a jump underflow
records the index of the jump, and a well-formed program raises no IllegalOpcode (spec/60_exceptions.md R105, R107 to
R110). -/
def Fault.justified (f : Fault) (s : State) : Prop :=
  match f with
  | .outOfRangeRegister i => 8 ≤ i
  | .outOfRangeMemory a => 256 ≤ a
  | .jumpUnderflow k => k = s.pc
  | .illegalOpcode _ => False

/-- The invariant of the machine under a well-formed program, for any field width and counter width. -/
structure State.Inv (fw pcw : Nat) (s : State) : Prop where
  /-- The program is well-formed (spec/30_encoding.md R64). -/
  prog_wf : programWellFormed fw pcw s.prog = true
  /-- The memory is in canonical form, every listed address below 256. -/
  mem_wf : s.mem.wf
  /-- The program counter fits in its PCW bits: it never wraps (spec/10_state.md R17). -/
  pc_fits : s.pc ≤ 2 ^ pcw - 1
  /-- Zero and Negative are never both true (spec/40_alu_arithmetic_logic.md R73). -/
  flags_exclusive : ¬ (s.flags.z = true ∧ s.flags.n = true)
  /-- A notice stands in the output only as its last event and only when Halted (spec/43_output_and_halt.md R102). -/
  notice_only_when_halted : s.status ≠ .halted → OutEvent.haltNotice ∉ s.output
  /-- Halted: the last event is the notice, the first one, and `pc` is the index of an END (R101, R102). -/
  halted_at_end : s.status = .halted →
    (∃ out, s.output = out ++ [.haltNotice] ∧ OutEvent.haltNotice ∉ out) ∧
      ∃ r, s.prog[s.pc]? = some r ∧ r.decode = .ok .endRun
  /-- Exhausted: `pc` is at or beyond PROG_LEN (spec/42_control_transfer.md R91). -/
  exhausted_past_end : s.status = .exhausted → s.prog.length ≤ s.pc
  /-- Faulted: `pc` is the index of an instruction and the fault says why (spec/60_exceptions.md R105, R112). -/
  faulted_why : ∀ f, s.status = .faulted f → s.pc < s.prog.length ∧ f.justified s

end Sys2Proof.Machine
end

