-- ==== Sys2Proof/Certificates/Slice0/Obligations.lean ====
section
/-! DEFINITION. The statements for the provers, each from the numbered rules of spec/. A rule the spec marks as its own
decision is named in the docstring of a statement that rests on it. -/

open Sys2Proof Sys2Proof.Machine

/-! What the statements are made of. -/

/-- Every byte of data memory reads as before. -/
def Sys2Proof.Claims.SameMemory (s t : State) : Prop := ∀ a : Fin 256, t.memRead a = s.memRead a

/-- Every register reads as before. -/
def Sys2Proof.Claims.SameRegs (s t : State) : Prop := ∀ j : Fin 8, t.reg j = s.reg j

/-- Every register except the one numbered `d` reads as before (all of them where `d` is above 7). -/
def Sys2Proof.Claims.SameRegsBut (d : Nat) (s t : State) : Prop := ∀ j : Fin 8, j.val ≠ d → t.reg j = s.reg j

/-- Output, status and program are as before, and the counter is one further. -/
def Sys2Proof.Claims.JustAdvances (s t : State) : Prop :=
  t.output = s.output ∧ t.status = s.status ∧ t.prog = s.prog ∧ t.pc = s.pc + 1

/-- The instruction raises the fault `f` and changes nothing but the status (spec/60_exceptions.md R112, D8). -/
def Sys2Proof.Claims.FaultsWith (i : Instr) (s : State) (f : Fault) : Prop :=
  exec i s = .next { s with status := .faulted f }

/-- The instruction of an arithmetic sub-operation. -/
def Sys2Proof.Claims.arithInstr (op : AluOp) (d l r : Nat) : Instr :=
  match op with
  | .add => .add d l r
  | .sub => .sub d l r
  | .and => .and d l r
  | .or => .or d l r
  | .xor => .xor d l r
  | .not => .not d l r

/-- The instruction is one of the six arithmetic sub-operations. -/
def Sys2Proof.Claims.IsArith (i : Instr) : Prop := ∃ op d l r, i = Sys2Proof.Claims.arithInstr op d l r

/-- The Carry column of the flag table (spec/40_alu_arithmetic_logic.md R81). -/
def Sys2Proof.Claims.carryOf (op : AluOp) (a b : Byte) : Bool :=
  match op with
  | .add => decide (a.toNat + b.toNat ≥ 256)
  | .sub => decide (b.toNat > a.toNat)
  | .and | .or | .xor | .not => false

/-- What one arithmetic instruction does, for every operand. With the three indices in range it completes: the result
byte stands in the destination, the three flags are the table's, the counter is one further, and nothing else changes;
the operands are the values before the instruction, whichever registers coincide. With an index out of range it raises
OutOfRange(register) for one that is. -/
def Sys2Proof.Claims.ArithRule (op : AluOp) (result : Byte → Byte → Byte → Prop) : Prop :=
  ∀ (d l r : Nat) (s : State),
    (∀ (hd : d < 8) (hl : l < 8) (hr : r < 8), ∃ t, exec (Claims.arithInstr op d l r) s = .next t ∧
      result (s.reg ⟨l, hl⟩) (s.reg ⟨r, hr⟩) (t.reg ⟨d, hd⟩) ∧
      t.flags = { c := Claims.carryOf op (s.reg ⟨l, hl⟩) (s.reg ⟨r, hr⟩),
                  z := decide ((t.reg ⟨d, hd⟩).toNat = 0), n := decide ((t.reg ⟨d, hd⟩).toNat > 127) } ∧
      Claims.SameRegsBut d s t ∧ Claims.SameMemory s t ∧ Claims.JustAdvances s t) ∧
    (l > 7 ∨ r > 7 ∨ d > 7 → ∃ t i, exec (Claims.arithInstr op d l r) s = .next t ∧
      t.status = .faulted (.outOfRangeRegister i) ∧ i > 7 ∧ (i = l ∨ i = r ∨ i = d))

/-- What one jump does, for every target: taken with a target of 1 or more, not taken, and taken with target 0. -/
def Sys2Proof.Claims.JumpRule (jump : Nat → Instr) (taken : State → Bool) : Prop :=
  ∀ (t : Nat) (s : State),
    (taken s = true → t ≥ 1 → exec (jump t) s = .next { s with pc := t }) ∧
    (taken s = false → exec (jump t) s = .next { s with pc := s.pc + 1 }) ∧
    (taken s = true → t = 0 → Claims.FaultsWith (jump t) s (.jumpUnderflow s.pc))

/-- The registers an instruction reads (spec/10_state.md R12). -/
def Sys2Proof.Claims.readsReg : Instr → List Nat
  | .add _ l r | .sub _ l r | .and _ l r | .or _ l r | .xor _ l r | .not _ l r => [l, r]
  | .print d => [d]
  | .store _ l => [l]
  | .move _ _ | .endRun | .load _ _ | .jumpIfZero _ | .jumpIfNotZero _ | .jump _ => []

/-- The register an instruction writes (spec/10_state.md R12). -/
def Sys2Proof.Claims.writesReg : Instr → Option Nat
  | .add d _ _ | .sub d _ _ | .and d _ _ | .or d _ _ | .xor d _ _ | .not d _ _ => some d
  | .move d _ | .load d _ => some d
  | .print _ | .endRun | .store _ _ | .jumpIfZero _ | .jumpIfNotZero _ | .jump _ => none

/-- The counter at the next fetch (spec/10_state.md R16). -/
def Sys2Proof.Claims.nextPc (i : Instr) (s : State) : Nat :=
  match i with
  | .jump t => t
  | .jumpIfZero t => if s.flags.z = true then t else s.pc + 1
  | .jumpIfNotZero t => if s.flags.z = false then t else s.pc + 1
  | .endRun => s.pc
  | .add _ _ _ | .sub _ _ _ | .and _ _ _ | .or _ _ _ | .xor _ _ _ | .not _ _ _ | .move _ _ | .print _ | .store _ _
  | .load _ _ => s.pc + 1

/-- Which fault an instruction can raise in a state (spec/60_exceptions.md R105, R124). -/
def Sys2Proof.Claims.mayRaise (i : Instr) (s : State) (f : Fault) : Prop :=
  match i, f with
  | .add d l r, .outOfRangeRegister k | .sub d l r, .outOfRangeRegister k | .and d l r, .outOfRangeRegister k
  | .or d l r, .outOfRangeRegister k | .xor d l r, .outOfRangeRegister k | .not d l r, .outOfRangeRegister k =>
      k > 7 ∧ (k = l ∨ k = r ∨ k = d)
  | .move d _, .outOfRangeRegister k | .print d, .outOfRangeRegister k | .load d _, .outOfRangeRegister k =>
      k > 7 ∧ k = d
  | .store _ l, .outOfRangeRegister k => k > 7 ∧ k = l
  | .store a _, .outOfRangeMemory k | .load _ a, .outOfRangeMemory k => k > 255 ∧ k = a
  | .jump t, .jumpUnderflow k => t = 0 ∧ k = s.pc
  | .jumpIfZero t, .jumpUnderflow k => t = 0 ∧ s.flags.z = true ∧ k = s.pc
  | .jumpIfNotZero t, .jumpUnderflow k => t = 0 ∧ s.flags.z = false ∧ k = s.pc
  | _, _ => False

/-- Which of the fields `dst`, `lhs`, `rhs` an opcode reads (spec/30_encoding.md R46). -/
def Sys2Proof.Claims.fieldsRead (opcode : Nat) : Bool × Bool × Bool :=
  if opcode ≤ 5 then (true, true, true)
  else if opcode = 6 then (true, true, false)
  else if opcode = 7 then (true, false, false)
  else if opcode = 8 then (false, false, false)
  else if opcode ≤ 10 then (true, true, false)
  else (false, true, false)

/-- The two states agree on everything but the Carry and Negative flags. -/
def Sys2Proof.Claims.SameButCN (s t : State) : Prop :=
  t = { s with flags := { c := t.flags.c, z := s.flags.z, n := t.flags.n } }

/-! Reset and the cycle. -/

/-- The state after reset (spec/10_state.md R28, spec/70_reset_and_hazards.md R125). `pc` 0 is the spec's D5 and the
flag values its D6; the empty program is the model's choice (log 3). -/
def Obligations.ResetStateIsTheTableOfResetValues : Prop :=
  (∀ j : Fin 8, State.reset.reg j = 0) ∧ (∀ a : Fin 256, State.reset.memRead a = 0) ∧ State.reset.mem.wf ∧
  State.reset.pc = 0 ∧ State.reset.flags = { c := false, z := false, n := false } ∧
  State.reset.status = .running ∧ State.reset.output = [] ∧ State.reset.prog = []

/-- A reset between two instructions, from any state, Running or final: every piece of state at its reset value and the
program kept (spec/70_reset_and_hazards.md R125, R127, the spec's D19). -/
def Obligations.ResetKeepsOnlyTheProgram : Prop :=
  ∀ s : State, s.resetNow = { State.reset with prog := s.prog }

/-- The first step after reset (spec/70_reset_and_hazards.md R126, spec/42_control_transfer.md R91; the spec's D5 and
D10): it runs the record at index 0, and an empty program is Exhausted with the reset state intact. -/
def Obligations.FirstStepFetchesIndexZero : Prop :=
  (∀ (r : Record) (p : List Record) (i : Instr), r.decode = .ok i →
    step (State.load (r :: p)) = exec i (State.load (r :: p))) ∧
  step (State.load []) = .next { State.load [] with status := .exhausted }

/-- One step, whole (spec/42_control_transfer.md R90, R91; exhaustion is the spec's D10, IllegalOpcode its D9): nothing
in a final status; Exhausted at or beyond PROG_LEN with nothing else changed; IllegalOpcode on an opcode above 13 with
nothing else changed; else the meaning of the decoded instruction. -/
def Obligations.StepRunsTheDecodedInstruction : Prop :=
  ∀ s : State,
    (s.status ≠ .running → step s = .next s) ∧
    (s.status = .running → s.pc ≥ s.prog.length → step s = .next { s with status := .exhausted }) ∧
    (∀ r, s.status = .running → s.prog[s.pc]? = some r → r.opcode > 13 →
      step s = .next { s with status := .faulted (.illegalOpcode r.opcode) }) ∧
    (∀ r i, s.status = .running → s.prog[s.pc]? = some r → r.decode = .ok i → step s = exec i s) ∧
    (∀ r, r.opcode ≤ 13 → ∃ i, Record.decode r = .ok i)

/-- Every step answers a next state: no step stops with a fault outcome or a refusal, whatever the state
(spec/42_control_transfer.md R90; a fault is a status, the model's log 8). -/
def Obligations.StepAlwaysAnswersAState : Prop := ∀ s : State, ∃ t, step s = .next t

/-- A final status is never left by steps, however many, and nothing changes; a reset is Running again
(spec/10_state.md R24, spec/60_exceptions.md R106, R123; the status is the spec's D17). -/
def Obligations.FinalStatusIsLeftOnlyByReset : Prop :=
  ∀ (s : State), s.status ≠ .running →
    (∀ k t, s.runsTo k t → t = s) ∧ (∀ k, s.runsTo k s) ∧ s.resetNow.status = .running

/-- The word placed for the host runs at the next step (the model's log 17): placing the word of a well-formed
instruction and stepping is executing it. -/
def Obligations.PlacedWordRunsNext : Prop :=
  ∀ (i : Instr) (s : State), i.wellFormed Config.fw = true →
    decodeTableWord 64 (encode i) = some i ∧
    step (s.withFetchWord 64 (encode i)) = exec i (s.withFetchWord 64 (encode i)) ∧
    (s.withFetchWord 64 (encode i)).pc = s.pc ∧ (s.withFetchWord 64 (encode i)).regs = s.regs ∧
    (s.withFetchWord 64 (encode i)).mem = s.mem ∧ (s.withFetchWord 64 (encode i)).flags = s.flags ∧
    (s.withFetchWord 64 (encode i)).output = s.output

/-- What the inspection interface shows is the state (spec/10_state.md R27; the flags by the spec's D18). -/
def Obligations.InspectionShowsTheState : Prop :=
  ∀ s : State, (∀ j : Fin 8, s.inspect.regs[j] = s.reg j) ∧
    (∀ a : Fin 256, s.inspect.mem[a.val]? = some (s.memRead a)) ∧ s.inspect.mem.length = 256 ∧
    s.inspect.pc = s.pc ∧ s.inspect.flags = s.flags

/-! The ALU and the six arithmetic and logic instructions. -/

/-- The ALU as a function of every pair of bytes (spec/40_alu_arithmetic_logic.md R66 to R70). That the Carry of ADD is
bit 8 of the sum is marked derived in R66. -/
def Obligations.AluTableForEveryBytePair : Prop :=
  ∀ a b : Byte,
    ((aluResult .add a b).toNat = (a.toNat + b.toNat) % 256 ∧
      aluCarry .add a b = decide (a.toNat + b.toNat ≥ 256) ∧ aluCarry .add a b = (a.toNat + b.toNat).testBit 8) ∧
    ((aluResult .sub a b).toNat = (if a.toNat ≥ b.toNat then a.toNat - b.toNat else a.toNat + 256 - b.toNat) ∧
      aluCarry .sub a b = decide (b.toNat > a.toNat)) ∧
    (∀ i < 8, (aluResult .and a b).getLsbD i = (a.getLsbD i && b.getLsbD i)) ∧
    (∀ i < 8, (aluResult .or a b).getLsbD i = (a.getLsbD i || b.getLsbD i)) ∧
    (∀ i < 8, (aluResult .xor a b).getLsbD i = (a.getLsbD i ^^ b.getLsbD i)) ∧
    ((∀ i < 8, (aluResult .not a b).getLsbD i = !a.getLsbD i) ∧ (aluResult .not a b).toNat = 255 - a.toNat ∧
      ∀ b' : Byte, aluResult .not a b' = aluResult .not a b ∧ aluFlags .not a b' = aluFlags .not a b) ∧
    (aluCarry .and a b = false ∧ aluCarry .or a b = false ∧ aluCarry .xor a b = false ∧ aluCarry .not a b = false) ∧
    ∀ op : AluOp,
      (aluFlags op a b).c = aluCarry op a b ∧
      (aluFlags op a b).z = decide ((aluResult op a b).toNat = 0) ∧
      (aluFlags op a b).n = decide ((aluResult op a b).toNat > 127) ∧
      (aluFlags op a b).n = (aluResult op a b).getLsbD 7

/-- ADD (spec/40_alu_arithmetic_logic.md R75). -/
def Obligations.AddWritesTheWrappedSum : Prop :=
  Claims.ArithRule .add fun a b y => y.toNat = (a.toNat + b.toNat) % 256

/-- SUB (spec/40_alu_arithmetic_logic.md R76): `lhs` minus `rhs`. -/
def Obligations.SubWritesTheWrappedDifference : Prop :=
  Claims.ArithRule .sub fun a b y => (y.toNat : Int) = ((a.toNat : Int) - b.toNat) % 256

/-- AND (spec/40_alu_arithmetic_logic.md R77). -/
def Obligations.AndWritesTheBitwiseAnd : Prop :=
  Claims.ArithRule .and fun a b y => ∀ i < 8, y.getLsbD i = (a.getLsbD i && b.getLsbD i)

/-- OR (spec/40_alu_arithmetic_logic.md R78). -/
def Obligations.OrWritesTheBitwiseOr : Prop :=
  Claims.ArithRule .or fun a b y => ∀ i < 8, y.getLsbD i = (a.getLsbD i || b.getLsbD i)

/-- XOR (spec/40_alu_arithmetic_logic.md R79). -/
def Obligations.XorWritesTheBitwiseExclusiveOr : Prop :=
  Claims.ArithRule .xor fun a b y => ∀ i < 8, y.getLsbD i = (a.getLsbD i ^^ b.getLsbD i)

/-- NOT (spec/40_alu_arithmetic_logic.md R80): the value of the register `rhs` has no effect, its index is checked. -/
def Obligations.NotWritesTheComplement : Prop :=
  Claims.ArithRule .not fun a _ y => y.toNat = 255 - a.toNat ∧ ∀ i < 8, y.getLsbD i = !a.getLsbD i

/-- Which index an arithmetic sub-operation reports, and that nothing else changes (spec/40_alu_arithmetic_logic.md R74,
spec/60_exceptions.md R111, R112): `lhs`, then `rhs`, then `dst`. The order and the precision are the spec's D8
(log 7). -/
def Obligations.ArithmeticFaultsInFieldOrder : Prop :=
  ∀ (op : AluOp) (d l r : Nat) (s : State),
    (l > 7 → Claims.FaultsWith (Claims.arithInstr op d l r) s (.outOfRangeRegister l)) ∧
    (l ≤ 7 → r > 7 → Claims.FaultsWith (Claims.arithInstr op d l r) s (.outOfRangeRegister r)) ∧
    (l ≤ 7 → r ≤ 7 → d > 7 → Claims.FaultsWith (Claims.arithInstr op d l r) s (.outOfRangeRegister d))

/-- The facts (a) to (h) about the ALU that follow from the rules (spec/40_alu_arithmetic_logic.md R73, marked derived there). -/
def Obligations.AluFactsDerivedInTheSpec : Prop :=
  (∀ op a b, ¬ ((aluFlags op a b).z = true ∧ (aluFlags op a b).n = true)) ∧
  (∀ op a b, op ≠ .add → op ≠ .sub → (aluFlags op a b).c = false) ∧
  ((aluFlags .add 255 255 = ⟨true, false, true⟩ ∧ aluResult .add 255 255 = 254) ∧
    aluFlags .add 255 1 = ⟨true, true, false⟩ ∧ aluFlags .add 128 128 = ⟨true, true, false⟩) ∧
  (∀ a b, ((aluFlags .sub a b).z = true → (aluFlags .sub a b).c = false) ∧
    ((aluFlags .sub a b).c = true → aluResult .sub a b ≠ 0)) ∧
  (∀ a b, aluResult .not a b = aluResult .xor a 255 ∧ aluFlags .not a b = aluFlags .xor a 255) ∧
  (∀ a, aluResult .xor a a = 0 ∧ (aluFlags .xor a a).z = true ∧ aluResult .and a a = a ∧ aluResult .or a a = a) ∧
  (∀ a b, (aluResult .sub a b).toNat = (a.toNat + (255 - b.toNat) + 1) % 256 ∧
    aluCarry .sub a b = !decide (a.toNat + (255 - b.toNat) + 1 ≥ 256)) ∧
  (∀ a, aluResult .add a 0 = a ∧ aluCarry .add a 0 = false ∧ aluResult .sub a 0 = a ∧ aluCarry .sub a 0 = false) ∧
  (∀ b, (aluResult .sub 0 b).toNat = (256 - b.toNat) % 256 ∧ (aluCarry .sub 0 b = true ↔ b ≠ 0))

/-- SUB as a comparison (spec/40_alu_arithmetic_logic.md R72, marked derived there). -/
def Obligations.SubComparesUnsigned : Prop :=
  ∀ (d l r : Nat) (hd : d < 8) (hl : l < 8) (hr : r < 8) (s : State), ∃ t, exec (.sub d l r) s = .next t ∧
    (t.flags.z = true ↔ s.reg ⟨l, hl⟩ = s.reg ⟨r, hr⟩) ∧
    (t.flags.c = true ↔ (s.reg ⟨l, hl⟩).toNat < (s.reg ⟨r, hr⟩).toNat) ∧
    (t.flags.c = false ∧ t.flags.z = false ↔ (s.reg ⟨r, hr⟩).toNat < (s.reg ⟨l, hl⟩).toNat) ∧
    t.reg ⟨d, hd⟩ = s.reg ⟨l, hl⟩ - s.reg ⟨r, hr⟩

/-! Data movement, control transfer, output and halt. -/

/-- MOVE (spec/41_data_movement.md R85). -/
def Obligations.MoveWritesTheTruncatedImmediate : Prop :=
  ∀ (d v : Nat) (s : State),
    (∀ hd : d < 8, ∃ t, exec (.move d v) s = .next t ∧ (t.reg ⟨d, hd⟩).toNat = v % 256 ∧ t.flags = s.flags ∧
      Claims.SameRegsBut d s t ∧ Claims.SameMemory s t ∧ Claims.JustAdvances s t) ∧
    (d > 7 → ∃ t, exec (.move d v) s = .next t ∧ t.status = .faulted (.outOfRangeRegister d))

/-- STORE (spec/41_data_movement.md R86), on a canonical memory. Which of two faults is reported, and that nothing else
changes, is the spec's D8 (log 7). -/
def Obligations.StoreWritesTheRegisterToTheCell : Prop :=
  ∀ (a l : Nat) (s : State),
    (∀ (ha : a < 256) (hl : l < 8), s.mem.wf → ∃ t, exec (.store a l) s = .next t ∧
      t.memRead ⟨a, ha⟩ = s.reg ⟨l, hl⟩ ∧ (∀ b : Fin 256, b.val ≠ a → t.memRead b = s.memRead b) ∧ t.mem.wf ∧
      Claims.SameRegs s t ∧ t.flags = s.flags ∧ Claims.JustAdvances s t) ∧
    (l > 7 → Claims.FaultsWith (.store a l) s (.outOfRangeRegister l)) ∧
    (l ≤ 7 → a > 255 → Claims.FaultsWith (.store a l) s (.outOfRangeMemory a))

/-- LOAD (spec/41_data_movement.md R87). Which of two faults is reported, and that nothing else changes, is the spec's
D8 (log 7). -/
def Obligations.LoadWritesTheCellToTheRegister : Prop :=
  ∀ (d a : Nat) (s : State),
    (∀ (hd : d < 8) (ha : a < 256), ∃ t, exec (.load d a) s = .next t ∧
      t.reg ⟨d, hd⟩ = s.memRead ⟨a, ha⟩ ∧ Claims.SameRegsBut d s t ∧ Claims.SameMemory s t ∧ t.flags = s.flags ∧
      Claims.JustAdvances s t) ∧
    (a > 255 → Claims.FaultsWith (.load d a) s (.outOfRangeMemory a)) ∧
    (a ≤ 255 → d > 7 → Claims.FaultsWith (.load d a) s (.outOfRangeRegister d))

/-- JUMP (spec/42_control_transfer.md R93 to R95; the fault on target 0 is the spec's D7, log 6). -/
def Obligations.JumpLandsOnItsTarget : Prop := Claims.JumpRule .jump fun _ => true

/-- JUMP-IF-ZERO (spec/42_control_transfer.md R93, R94, R96; target 0 is the spec's D7, log 6). -/
def Obligations.JumpIfZeroTestsTheZeroFlag : Prop := Claims.JumpRule .jumpIfZero fun s => s.flags.z

/-- JUMP-IF-NOT-ZERO (spec/42_control_transfer.md R93, R94, R97; target 0 is the spec's D7, log 6). -/
def Obligations.JumpIfNotZeroTestsTheZeroFlag : Prop := Claims.JumpRule .jumpIfNotZero fun s => !s.flags.z

/-- The two policies for target 0 agree on every other target, and the two halves of a jump give its net effect
(spec/42_control_transfer.md R93, R94; the spec's D7 and D21, logs 6 and 24). -/
def Obligations.JumpPoliciesDifferOnlyAtTargetZero : Prop :=
  ∀ (s : State) (t : Nat),
    (t ≥ 1 → ∀ policy, s.jumpTo policy t = .next { s with pc := t }) ∧
    s.jumpTo .fault 0 = .next { s with status := .faulted (.jumpUnderflow s.pc) } ∧
    s.jumpTo .wrap 0 = .next { s with pc := 0 }

/-- PRINT (spec/43_output_and_halt.md R100, the spec's D12; the fault changes nothing else by its D8). -/
def Obligations.PrintAppendsTheRegister : Prop :=
  ∀ (d : Nat) (s : State),
    (∀ hd : d < 8, exec (.print d) s =
      .next { s with output := s.output ++ [.out (s.reg ⟨d, hd⟩)], pc := s.pc + 1 }) ∧
    (d > 7 → Claims.FaultsWith (.print d) s (.outOfRangeRegister d))

/-- END (spec/43_output_and_halt.md R101, the spec's D11): the notice, the status, and the counter stays. -/
def Obligations.EndHaltsWithANotice : Prop :=
  ∀ s : State, exec .endRun s = .next { s with output := s.output ++ [.haltNotice], status := .halted }

/-! Frames: what an instruction leaves unchanged in whatever next state it answers, a fault's included. -/

/-- The six arithmetic sub-operations change no register but their destination and store nothing. -/
def Obligations.ArithmeticFrame : Prop :=
  ∀ (op : AluOp) (d l r : Nat) (s t : State), exec (Claims.arithInstr op d l r) s = .next t →
    Claims.SameRegsBut d s t ∧ Claims.SameMemory s t ∧ t.mem = s.mem ∧ t.output = s.output ∧ t.prog = s.prog

/-- MOVE and LOAD change no register but their destination, no flag, and store nothing. -/
def Obligations.MoveAndLoadFrame : Prop :=
  ∀ (i : Instr) (d v : Nat) (s t : State), (i = .move d v ∨ i = .load d v) → exec i s = .next t →
    Claims.SameRegsBut d s t ∧ Claims.SameMemory s t ∧ t.mem = s.mem ∧ t.flags = s.flags ∧ t.output = s.output ∧
    t.prog = s.prog

/-- STORE changes no register and no flag, and no byte of memory but the one at its address field, in any state. -/
def Obligations.StoreFrame : Prop :=
  ∀ (a l : Nat) (s t : State), exec (.store a l) s = .next t →
    (∀ b : Fin 256, b.val ≠ a → t.memRead b = s.memRead b) ∧ Claims.SameRegs s t ∧ t.flags = s.flags ∧
    t.output = s.output ∧ t.prog = s.prog

/-- The three jumps, PRINT and END change no register, no flag and no byte of memory; the jumps write no output. -/
def Obligations.JumpAndOutputFrame : Prop :=
  ∀ (i : Instr) (x : Nat) (s t : State),
    (i = .jump x ∨ i = .jumpIfZero x ∨ i = .jumpIfNotZero x ∨ i = .print x ∨ i = .endRun) → exec i s = .next t →
    Claims.SameRegs s t ∧ Claims.SameMemory s t ∧ t.mem = s.mem ∧ t.flags = s.flags ∧ t.prog = s.prog ∧
    (i = .jump x ∨ i = .jumpIfZero x ∨ i = .jumpIfNotZero x → t.output = s.output)

/-! Rules about the whole machine. -/

/-- The register table (spec/10_state.md R12): a step writes a register only by an instruction whose destination it is,
and a register an instruction does not read has no influence on anything else it does. -/
def Obligations.RegistersReadAndWrittenAsTheTableSays : Prop :=
  (∀ (s t : State) (j : Fin 8), step s = .next t → t.reg j ≠ s.reg j →
    ∃ i, s.nextInstr = some i ∧ Claims.writesReg i = some j.val) ∧
  (∀ (i : Instr) (s t t' : State) (j : Fin 8) (v : Byte), j.val ∉ Claims.readsReg i →
    exec i s = .next t → exec i (s.setReg j v) = .next t' →
    t' = t.setReg j (t'.reg j) ∧
    (Claims.writesReg i = some j.val → t.notFaulted → t' = t))

/-- Writers of the flags (spec/10_state.md R19, spec/40_alu_arithmetic_logic.md R71): exactly the six arithmetic
sub-operations, each of which writes all three with the table's values, whatever the old flags were. -/
def Obligations.OnlyTheSixSubOperationsWriteFlags : Prop :=
  (∀ (i : Instr) (s t : State), ¬ Claims.IsArith i → exec i s = .next t → t.flags = s.flags) ∧
  (∀ (s t : State), step s = .next t → t.flags ≠ s.flags → ∃ i, s.nextInstr = some i ∧ Claims.IsArith i) ∧
  (∀ (op : AluOp) (d l r : Nat) (hd : d < 8) (hl : l < 8) (hr : r < 8) (s : State) (f : Flags), ∃ t,
    exec (Claims.arithInstr op d l r) s = .next t ∧
    exec (Claims.arithInstr op d l r) { s with flags := f } = .next t ∧
    t.flags = { c := Claims.carryOf op (s.reg ⟨l, hl⟩) (s.reg ⟨r, hr⟩),
                z := decide ((t.reg ⟨d, hd⟩).toNat = 0), n := decide ((t.reg ⟨d, hd⟩).toNat > 127) })

/-- Readers of the flags (spec/10_state.md R20): an instruction other than the two conditional jumps does the same
whatever the flags, and the two read Z and nothing else. -/
def Obligations.OnlyConditionalJumpsReadAFlag : Prop :=
  ∀ (i : Instr) (s t t' : State) (f : Flags), exec i s = .next t → exec i { s with flags := f } = .next t' →
    ((∀ x, i ≠ .jumpIfZero x ∧ i ≠ .jumpIfNotZero x) → t' = { t with flags := t'.flags }) ∧
    (∀ x, (i = .jumpIfZero x ∨ i = .jumpIfNotZero x) →
      (f.z = s.flags.z → t' = { t with flags := f }) ∧ (f.z ≠ s.flags.z → x ≥ 1 → x ≠ s.pc + 1 → t'.pc ≠ t.pc))

/-- Carry and Negative never influence a run of any length, from any state (spec/10_state.md R20, R28): two runs that
begin alike but for them stay alike but for them. So only Z of the reset flags (the spec's D6) can matter. -/
def Obligations.CarryAndNegativeNeverInfluenceARun : Prop :=
  ∀ (k : Nat) (s s' t t' : State), Claims.SameButCN s s' → s.runsTo k t → s'.runsTo k t' → Claims.SameButCN t t'

/-- The data memory and its two primitives (spec/20_memory.md R30), on a canonical memory: reading, writing, all zero at
reset, changed only by STORE, read only by LOAD. -/
def Obligations.DataMemoryIsReadAndWrittenByTwoPrimitives : Prop :=
  (∀ (s : State) (a b : Fin 256) (v : Byte), s.mem.wf →
    (s.memWrite a v).memRead a = v ∧ (b ≠ a → (s.memWrite a v).memRead b = s.memRead b)) ∧
  (∀ a : Fin 256, State.reset.memRead a = 0) ∧
  (∀ (s t : State) (a : Fin 256), step s = .next t → t.memRead a ≠ s.memRead a →
    ∃ l, s.nextInstr = some (.store a.val l)) ∧
  (∀ (i : Instr) (s t t' : State) (m : Memory), (∀ d a, i ≠ .load d a) →
    exec i s = .next t → exec i { s with mem := m } = .next t' → t' = { t with mem := t'.mem })

/-- STORE then LOAD (spec/41_data_movement.md R89): with any number of steps between them, none of which runs a STORE to
that address, the register loaded holds the value the register stored had. -/
def Obligations.StoreThenLoadRoundTrip : Prop :=
  ∀ (m r d k : Nat) (s t₀ t₁ t₂ : State), s.mem.wf →
    s.nextInstr = some (.store m r) → step s = .next t₀ → t₀.notFaulted →
    State.noStoreTo m k t₀ → t₀.runsTo k t₁ →
    t₁.nextInstr = some (.load d m) → step t₁ = .next t₂ → t₂.notFaulted →
    ∃ (hr : r < 8) (hd : d < 8), t₂.reg ⟨d, hd⟩ = s.reg ⟨r, hr⟩

/-- A cell never stored to reads 0 in every state of a run (spec/20_memory.md R39, R44). -/
def Obligations.UnstoredCellReadsZero : Prop :=
  ∀ (p : List Record) (m : Fin 256) (k : Nat) (t : State),
    State.noStoreTo m.val k (State.load p) → (State.load p).runsTo k t → t.memRead m = 0

/-- The program is never changed, and stores are never seen by instruction fetch (spec/10_state.md R26,
spec/20_memory.md R42). -/
def Obligations.ProgramIsNeverChanged : Prop :=
  (∀ (k : Nat) (s t : State), s.runsTo k t → t.prog = s.prog) ∧
  (∀ (i : Instr) (s t : State), exec i s = .next t → t.prog = s.prog) ∧
  (∀ (s : State) (m : Memory), ({ s with mem := m } : State).fetch = s.fetch)

/-- The counter at the next fetch, for every instruction (spec/10_state.md R16, spec/42_control_transfer.md R92): where
the machine goes on, the table's; where it halts or faults, the index of the instruction (the spec's D8 and D11). -/
def Obligations.CounterAtTheNextFetch : Prop :=
  ∀ (i : Instr) (s t : State), s.status = .running → exec i s = .next t →
    (t.status = .running → t.pc = Claims.nextPc i s) ∧ (t.status ≠ .running → t.pc = s.pc)

/-- The output stream only grows, by at most one event a step, and only PRINT and END emit (spec/10_state.md R25, the
spec's D12). -/
def Obligations.OutputOnlyGrows : Prop :=
  (∀ s t : State, step s = .next t → t.output = s.output ∨
    (∃ d, s.nextInstr = some (.print d) ∧ ∃ v, t.output = s.output ++ [.out v]) ∨
    (s.nextInstr = some .endRun ∧ t.output = s.output ++ [.haltNotice])) ∧
  (∀ (k : Nat) (s t : State), s.runsTo k t → s.output <+: t.output)

/-- A fault changes nothing but the status, for every instruction (spec/60_exceptions.md R112, the spec's D8, log 7). -/
def Obligations.FaultsChangeOnlyTheStatus : Prop :=
  ∀ (i : Instr) (s t : State) (f : Fault), s.notFaulted → exec i s = .next t → t.status = .faulted f →
    t = { s with status := .faulted f }

/-- Which instruction can cause which fault, with the value it records (spec/60_exceptions.md R105, R107 to R109, R124;
R124 is marked derived there, JumpUnderflow is the spec's D7). -/
def Obligations.EachFaultHasItsCause : Prop :=
  ∀ (i : Instr) (s t : State) (f : Fault), s.notFaulted → exec i s = .next t → t.status = .faulted f →
    Claims.mayRaise i s f

/-- The invariant holds right after reset, under any well-formed program and any reset flags that are not Z with N
(spec/10_state.md R28); so it holds at the machine's reset state. -/
def Obligations.ResetMeetsTheInvariant : Prop :=
  (∀ (fw pcw : Nat) (f : Flags) (p : List Record), programWellFormed fw pcw p = true → ¬ (f.z = true ∧ f.n = true) →
    (State.resetWith f p).Inv fw pcw) ∧
  State.reset.Inv Config.fw Config.pcw

/-- Every step keeps the invariant, from every state that meets it, at any widths the spec admits (spec/10_state.md R17,
spec/00_scope.md R5): the program stays well-formed, the memory canonical, the counter within its PCW bits, Z and N
exclusive, and a final status stands for what it says. -/
def Obligations.StepKeepsTheInvariant : Prop :=
  ∀ (fw pcw : Nat), 4 ≤ fw → fw ≤ pcw → ∀ s t : State, s.Inv fw pcw → step s = .next t → t.Inv fw pcw

/-- A run of a well-formed program, at any moment (spec/43_output_and_halt.md R102, spec/60_exceptions.md R124; the
spec's D10, D11, D17): Halted with the counter at an END and the notice as the only and last one; Exhausted with the
counter at or beyond the end and no notice; Faulted with one of the first three faults; else still Running with no
notice. It is a corollary of `ResetMeetsTheInvariant` and `StepKeepsTheInvariant`. The opcode 8 of END is the spec's D2
(log 9), the counter of a Faulted state at the faulting instruction its D8 (log 7). -/
def Obligations.RunOfAWellFormedProgramEndsInThreeWays : Prop :=
  ∀ (p : List Record) (k : Nat) (t : State), programWellFormed Config.fw Config.pcw p = true →
    (State.load p).runsTo k t →
    match t.status with
    | .running => OutEvent.haltNotice ∉ t.output
    | .halted => (∃ out, t.output = out ++ [.haltNotice] ∧ OutEvent.haltNotice ∉ out) ∧
        ∃ r, p[t.pc]? = some r ∧ r.opcode = 8
    | .exhausted => p.length ≤ t.pc ∧ OutEvent.haltNotice ∉ t.output
    | .faulted f => t.pc < p.length ∧ OutEvent.haltNotice ∉ t.output ∧ 1 ≤ f.code ∧ f.code ≤ 3

/-- The stronger static check of operand ranges rules every fault out (spec/30_encoding.md R64, marked derived there):
no state of any run of a program that passes it is Faulted. -/
def Obligations.StaticRangeCheckRulesOutFaults : Prop :=
  ∀ (p : List Record) (k : Nat) (t : State), programRangesOk p = true → (State.load p).runsTo k t → t.notFaulted

/-! Encoding. -/

/-- Decode of encode, for every well-formed instruction and every field width the spec admits
(spec/30_encoding.md R46, R47, R49; numbers and layout are the spec's D2 and D3). -/
def Obligations.DecodeOfEncodeIsTheInstruction : Prop :=
  ∀ (fw : Nat) (i : Instr), 4 ≤ fw → i.wellFormed fw = true →
    decodeWord fw (encodeWord fw i) = .ok i ∧ encodeWord fw i < 2 ^ (4 * fw)

/-- Records and words are inverse of each other, for every field width (spec/30_encoding.md R50, marked derived there;
the layout is the spec's D3). -/
def Obligations.RecordsAndWordsAreInverse : Prop :=
  ∀ fw : Nat,
    (∀ r : Record, r.opcode < 2 ^ fw → r.dst < 2 ^ fw → r.lhs < 2 ^ fw → r.rhs < 2 ^ fw →
      Record.ofWord fw (r.toWord fw) = r ∧ r.toWord fw < 2 ^ (4 * fw)) ∧
    (∀ w : Nat, w < 2 ^ (4 * fw) → (Record.ofWord fw w).toWord fw = w)

/-- One word of each of a few families, from the worked encodings (spec/30_encoding.md R63, the spec's D2 and D3). -/
def Obligations.WorkedWordsDecode : Prop :=
  decode 0x0000000200000001 = .ok (.add 2 0 1) ∧ decode 0x0005000200030000 = .ok (.not 2 3 0) ∧
  decode 0x0006000100140000 = .ok (.move 1 20) ∧ decode 0x000900C800010000 = .ok (.store 200 1) ∧
  decode 0x000B000000050000 = .ok (.jumpIfZero 5) ∧ decode 0x0007000200000000 = .ok (.print 2) ∧
  decode 0x000E000000000000 = .error (.illegalOpcode 14)

/-- A field an opcode does not read has no effect: two records alike in the opcode and in the fields it reads decode
alike (spec/30_encoding.md R46, R53, the spec's D13). -/
def Obligations.UnreadFieldsHaveNoEffect : Prop :=
  ∀ r r' : Record, r.opcode = r'.opcode →
    ((Claims.fieldsRead r.opcode).1 = true → r.dst = r'.dst) →
    ((Claims.fieldsRead r.opcode).2.1 = true → r.lhs = r'.lhs) →
    ((Claims.fieldsRead r.opcode).2.2 = true → r.rhs = r'.rhs) →
    r.decode = r'.decode

/-- The Loader reads back the text of a well-formed program, at any widths (spec/30_encoding.md R58, R64). -/
def Obligations.LoaderReadsTheTextOfAProgram : Prop :=
  ∀ (fw pcw : Nat) (p : List Record), 4 ≤ fw → programWellFormed fw pcw p = true →
    Loader.load fw pcw (Loader.textOfProgram fw p) = .ok p

/-- A text the Loader accepts spells a well-formed program, so a run of it raises no IllegalOpcode
(spec/30_encoding.md R54, R60, R64; the spec's D9 and D16). -/
def Obligations.LoaderAcceptsOnlyWellFormedPrograms : Prop :=
  ∀ (fw pcw : Nat) (text : List Char) (p : List Record), Loader.load fw pcw text = .ok p →
    programWellFormed fw pcw p = true
end

