-- ==== Sys2Proof/Laws/Alu.lean ====
section
/-! SUPPORT. The ALU's results and flags as natural numbers (spec/40_alu_arithmetic_logic.md R66 to R70). -/

namespace Sys2Proof.Machine

/-- ADD, as a number. -/
theorem aluResult_add_toNat (a b : Byte) : (aluResult .add a b).toNat = (a.toNat + b.toNat) % 256 := by
  simp [aluResult, trunc8]

/-- SUB, as an integer. -/
theorem aluResult_sub_toInt (a b : Byte) : ((aluResult .sub a b).toNat : Int) = ((a.toNat : Int) - b.toNat) % 256 := by
  show ((BitVec.ofInt 8 _).toNat : Int) = _
  rw [BitVec.toNat_ofInt]
  simp
  omega

/-- SUB, as a number. -/
theorem aluResult_sub_toNat (a b : Byte) : (aluResult .sub a b).toNat =
    if a.toNat ≥ b.toNat then a.toNat - b.toNat else a.toNat + 256 - b.toNat := by
  have h := aluResult_sub_toInt a b
  have ha := a.isLt
  have hb := b.isLt
  split <;> omega

/-- NOT, as a number. -/
theorem aluResult_not_toNat (a b : Byte) : (aluResult .not a b).toNat = 255 - a.toNat := by
  have ha := a.isLt
  simp [aluResult, trunc8]
  omega

/-- NOT complements every bit. -/
theorem aluResult_not (a b : Byte) : aluResult .not a b = ~~~a := by
  apply BitVec.eq_of_toNat_eq
  rw [aluResult_not_toNat, BitVec.toNat_not]

/-- The Zero flag, by the number. -/
theorem zeroFlag_eq (y : Byte) : zeroFlag y = decide (y.toNat = 0) := by
  unfold zeroFlag
  congr 1
  rw [BitVec.toNat_eq]
  rfl

/-- The Negative flag is bit 7. -/
theorem negativeFlag_eq_bit (y : Byte) : negativeFlag y = y.getLsbD 7 := by
  have h := BitVec.msb_eq_decide y
  unfold negativeFlag
  rw [BitVec.msb_eq_getLsbD_last] at h
  exact h.symm

/-- Zero and Negative are never both true (spec/40_alu_arithmetic_logic.md R73). -/
theorem zero_negative_exclusive (y : Byte) : ¬ (zeroFlag y = true ∧ negativeFlag y = true) := by
  rw [zeroFlag_eq]
  simp only [negativeFlag, decide_eq_true_eq]
  omega

end Sys2Proof.Machine
end

