-- ==== Sys2Proof/Laws/State.lean ====
section
/-! SUPPORT. One lemma per field per update of the state, true by rfl, so that no later proof unfolds a record update;
and reading a register or a memory cell after an update. -/

namespace Sys2Proof.Machine

variable (s : State)

@[simp] theorem State.setReg_regs (i : Fin 8) (v : Byte) : (s.setReg i v).regs = s.regs.set i v := rfl
@[simp] theorem State.setReg_mem (i : Fin 8) (v : Byte) : (s.setReg i v).mem = s.mem := rfl
@[simp] theorem State.setReg_pc (i : Fin 8) (v : Byte) : (s.setReg i v).pc = s.pc := rfl
@[simp] theorem State.setReg_flags (i : Fin 8) (v : Byte) : (s.setReg i v).flags = s.flags := rfl
@[simp] theorem State.setReg_status (i : Fin 8) (v : Byte) : (s.setReg i v).status = s.status := rfl
@[simp] theorem State.setReg_output (i : Fin 8) (v : Byte) : (s.setReg i v).output = s.output := rfl
@[simp] theorem State.setReg_prog (i : Fin 8) (v : Byte) : (s.setReg i v).prog = s.prog := rfl
@[simp] theorem State.setReg_memRead (i : Fin 8) (v : Byte) (m : Fin 256) : (s.setReg i v).memRead m = s.memRead m := rfl

@[simp] theorem State.memWrite_regs (a : Fin 256) (v : Byte) : (s.memWrite a v).regs = s.regs := rfl
@[simp] theorem State.memWrite_mem (a : Fin 256) (v : Byte) : (s.memWrite a v).mem = s.mem.write a v := rfl
@[simp] theorem State.memWrite_pc (a : Fin 256) (v : Byte) : (s.memWrite a v).pc = s.pc := rfl
@[simp] theorem State.memWrite_flags (a : Fin 256) (v : Byte) : (s.memWrite a v).flags = s.flags := rfl
@[simp] theorem State.memWrite_status (a : Fin 256) (v : Byte) : (s.memWrite a v).status = s.status := rfl
@[simp] theorem State.memWrite_output (a : Fin 256) (v : Byte) : (s.memWrite a v).output = s.output := rfl
@[simp] theorem State.memWrite_prog (a : Fin 256) (v : Byte) : (s.memWrite a v).prog = s.prog := rfl
@[simp] theorem State.memWrite_reg (a : Fin 256) (v : Byte) (j : Fin 8) : (s.memWrite a v).reg j = s.reg j := rfl

@[simp] theorem State.setFlags_regs (f : Flags) : (s.setFlags f).regs = s.regs := rfl
@[simp] theorem State.setFlags_mem (f : Flags) : (s.setFlags f).mem = s.mem := rfl
@[simp] theorem State.setFlags_pc (f : Flags) : (s.setFlags f).pc = s.pc := rfl
@[simp] theorem State.setFlags_flags (f : Flags) : (s.setFlags f).flags = f := rfl
@[simp] theorem State.setFlags_status (f : Flags) : (s.setFlags f).status = s.status := rfl
@[simp] theorem State.setFlags_output (f : Flags) : (s.setFlags f).output = s.output := rfl
@[simp] theorem State.setFlags_prog (f : Flags) : (s.setFlags f).prog = s.prog := rfl
@[simp] theorem State.setFlags_reg (f : Flags) (j : Fin 8) : (s.setFlags f).reg j = s.reg j := rfl
@[simp] theorem State.setFlags_memRead (f : Flags) (m : Fin 256) : (s.setFlags f).memRead m = s.memRead m := rfl

@[simp] theorem State.setPc_regs (k : Nat) : (s.setPc k).regs = s.regs := rfl
@[simp] theorem State.setPc_mem (k : Nat) : (s.setPc k).mem = s.mem := rfl
@[simp] theorem State.setPc_pc (k : Nat) : (s.setPc k).pc = k := rfl
@[simp] theorem State.setPc_flags (k : Nat) : (s.setPc k).flags = s.flags := rfl
@[simp] theorem State.setPc_status (k : Nat) : (s.setPc k).status = s.status := rfl
@[simp] theorem State.setPc_output (k : Nat) : (s.setPc k).output = s.output := rfl
@[simp] theorem State.setPc_prog (k : Nat) : (s.setPc k).prog = s.prog := rfl
@[simp] theorem State.setPc_reg (k : Nat) (j : Fin 8) : (s.setPc k).reg j = s.reg j := rfl
@[simp] theorem State.setPc_memRead (k : Nat) (m : Fin 256) : (s.setPc k).memRead m = s.memRead m := rfl

@[simp] theorem State.advance_regs : s.advance.regs = s.regs := rfl
@[simp] theorem State.advance_mem : s.advance.mem = s.mem := rfl
@[simp] theorem State.advance_pc : s.advance.pc = s.pc + 1 := rfl
@[simp] theorem State.advance_flags : s.advance.flags = s.flags := rfl
@[simp] theorem State.advance_status : s.advance.status = s.status := rfl
@[simp] theorem State.advance_output : s.advance.output = s.output := rfl
@[simp] theorem State.advance_prog : s.advance.prog = s.prog := rfl
@[simp] theorem State.advance_reg (j : Fin 8) : s.advance.reg j = s.reg j := rfl
@[simp] theorem State.advance_memRead (m : Fin 256) : s.advance.memRead m = s.memRead m := rfl

@[simp] theorem State.emit_regs (e : OutEvent) : (s.emit e).regs = s.regs := rfl
@[simp] theorem State.emit_mem (e : OutEvent) : (s.emit e).mem = s.mem := rfl
@[simp] theorem State.emit_pc (e : OutEvent) : (s.emit e).pc = s.pc := rfl
@[simp] theorem State.emit_flags (e : OutEvent) : (s.emit e).flags = s.flags := rfl
@[simp] theorem State.emit_status (e : OutEvent) : (s.emit e).status = s.status := rfl
@[simp] theorem State.emit_output (e : OutEvent) : (s.emit e).output = s.output ++ [e] := rfl
@[simp] theorem State.emit_prog (e : OutEvent) : (s.emit e).prog = s.prog := rfl
@[simp] theorem State.emit_reg (e : OutEvent) (j : Fin 8) : (s.emit e).reg j = s.reg j := rfl
@[simp] theorem State.emit_memRead (e : OutEvent) (m : Fin 256) : (s.emit e).memRead m = s.memRead m := rfl

@[simp] theorem State.setStatus_regs (t : Status) : (s.setStatus t).regs = s.regs := rfl
@[simp] theorem State.setStatus_mem (t : Status) : (s.setStatus t).mem = s.mem := rfl
@[simp] theorem State.setStatus_pc (t : Status) : (s.setStatus t).pc = s.pc := rfl
@[simp] theorem State.setStatus_flags (t : Status) : (s.setStatus t).flags = s.flags := rfl
@[simp] theorem State.setStatus_status (t : Status) : (s.setStatus t).status = t := rfl
@[simp] theorem State.setStatus_output (t : Status) : (s.setStatus t).output = s.output := rfl
@[simp] theorem State.setStatus_prog (t : Status) : (s.setStatus t).prog = s.prog := rfl
@[simp] theorem State.setStatus_reg (t : Status) (j : Fin 8) : (s.setStatus t).reg j = s.reg j := rfl
@[simp] theorem State.setStatus_memRead (t : Status) (m : Fin 256) : (s.setStatus t).memRead m = s.memRead m := rfl

@[simp] theorem State.raise_regs (f : Fault) : (s.raise f).regs = s.regs := rfl
@[simp] theorem State.raise_mem (f : Fault) : (s.raise f).mem = s.mem := rfl
@[simp] theorem State.raise_pc (f : Fault) : (s.raise f).pc = s.pc := rfl
@[simp] theorem State.raise_flags (f : Fault) : (s.raise f).flags = s.flags := rfl
@[simp] theorem State.raise_status (f : Fault) : (s.raise f).status = .faulted f := rfl
@[simp] theorem State.raise_output (f : Fault) : (s.raise f).output = s.output := rfl
@[simp] theorem State.raise_prog (f : Fault) : (s.raise f).prog = s.prog := rfl
@[simp] theorem State.raise_reg (f : Fault) (j : Fin 8) : (s.raise f).reg j = s.reg j := rfl
@[simp] theorem State.raise_memRead (f : Fault) (m : Fin 256) : (s.raise f).memRead m = s.memRead m := rfl

@[simp] theorem State.exhaust_regs : s.exhaust.regs = s.regs := rfl
@[simp] theorem State.exhaust_mem : s.exhaust.mem = s.mem := rfl
@[simp] theorem State.exhaust_pc : s.exhaust.pc = s.pc := rfl
@[simp] theorem State.exhaust_flags : s.exhaust.flags = s.flags := rfl
@[simp] theorem State.exhaust_status : s.exhaust.status = .exhausted := rfl
@[simp] theorem State.exhaust_output : s.exhaust.output = s.output := rfl
@[simp] theorem State.exhaust_prog : s.exhaust.prog = s.prog := rfl
@[simp] theorem State.exhaust_reg (j : Fin 8) : s.exhaust.reg j = s.reg j := rfl
@[simp] theorem State.exhaust_memRead (m : Fin 256) : s.exhaust.memRead m = s.memRead m := rfl

/-- A register reads the value just written to it. -/
@[simp] theorem State.setReg_reg_same (i : Fin 8) (v : Byte) : (s.setReg i v).reg i = v := by
  simp [State.reg, State.setReg]

/-- A register write leaves every other register alone. -/
theorem State.setReg_reg_ne {i j : Fin 8} (h : j ≠ i) (v : Byte) : (s.setReg i v).reg j = s.reg j := by
  have : i.val ≠ j.val := fun e => h (Fin.ext e.symm)
  simp [State.reg, State.setReg, Vector.getElem_set_ne, this]

/-- Two register files that read alike are the same. -/
theorem regs_ext {u v : Vector Byte 8} (h : ∀ j : Fin 8, u[j] = v[j]) : u = v :=
  Vector.ext fun i hi => h ⟨i, hi⟩

/-- The later of two writes to one register stands. -/
theorem State.setReg_setReg (i : Fin 8) (u v : Byte) : (s.setReg i u).setReg i v = s.setReg i v := by
  simp [State.setReg]

/-- Writes to two registers commute. -/
theorem State.setReg_comm {i j : Fin 8} (h : i ≠ j) (u v : Byte) :
    (s.setReg i u).setReg j v = (s.setReg j v).setReg i u := by
  have hv : i.val ≠ j.val := fun e => h (Fin.ext e)
  simp only [State.setReg]
  congr 1
  refine regs_ext fun k => ?_
  simp only [Fin.getElem_fin, Vector.getElem_set]
  split <;> split <;> first | rfl | (exfalso; omega)

/-- Writing what a register holds changes nothing. -/
theorem State.setReg_self (i : Fin 8) : s.setReg i (s.reg i) = s := by
  simp [State.setReg, State.reg]

end Sys2Proof.Machine
end

