-- ==== Sys2Proof/Laws/Memory.lean ====
section
/-! SUPPORT. The laws of the data memory: read after write, and that every operation keeps the canonical form. -/

namespace Sys2Proof.Machine

/-- Below the first listed address nothing is listed. -/
theorem Memory.read_below {m : Memory} {a : Nat} (h : ∀ c ∈ m, a < c.1) : m.read a = Memory.unlisted := by
  induction m with
  | nil => rfl
  | cons c m ih =>
    have hc := h c (by simp)
    have hne : c.1 ≠ a := by omega
    simp [Memory.read, hne]
    exact ih fun c' hc' => h c' (by simp [hc'])

/-- A cell put before the rest reads its value at its own address, and the rest elsewhere. -/
theorem Memory.read_consCell {m : Memory} {a : Nat} (h : ∀ c ∈ m, a < c.1) (v : Byte) (b : Nat) :
    (Memory.consCell a v m).read b = if b = a then v else m.read b := by
  unfold Memory.consCell
  by_cases hv : v = Memory.unlisted
  · by_cases hb : b = a
    · subst hb; simp [hv, Memory.read_below h]
    · simp [hv, hb]
  · by_cases hb : b = a
    · simp [hv, hb, Memory.read]
    · have : ¬ a = b := fun e => hb e.symm
      simp [hv, hb, this, Memory.read]

/-- Reading after a write, at any address, in a memory whose addresses rise strictly. -/
theorem Memory.read_write {m : Memory} (h : m.Pairwise (fun c c' => c.1 < c'.1)) (a : Nat) (v : Byte) (b : Nat) :
    (m.write a v).read b = if b = a then v else m.read b := by
  induction m with
  | nil => exact Memory.read_consCell (by simp) v b
  | cons c m ih =>
    obtain ⟨k, u⟩ := c
    rw [List.pairwise_cons] at h
    unfold Memory.write
    split
    · rename_i hlt
      refine Memory.read_consCell (fun c hc => ?_) v b
      rcases List.mem_cons.mp hc with rfl | hc
      · exact hlt
      · exact Nat.lt_trans hlt (h.1 c hc)
    · split
      · rename_i _ heq
        subst heq
        rw [Memory.read_consCell (fun c hc => h.1 c hc) v b]
        by_cases hb : b = a
        · simp [hb]
        · have : ¬ a = b := fun e => hb e.symm
          simp [hb, this, Memory.read]
      · rename_i _ hne
        by_cases hk : k = b
        · have : ¬ b = a := fun e => hne (by omega)
          simp [Memory.read, hk, this]
        · simp [Memory.read, hk, ih h.2]

/-- Reading elsewhere than at the written address, in any memory. -/
theorem Memory.read_write_ne (m : Memory) {a b : Nat} (h : b ≠ a) (v : Byte) : (m.write a v).read b = m.read b := by
  have hab : ¬ a = b := fun e => h e.symm
  have hcons : ∀ m : Memory, (Memory.consCell a v m).read b = m.read b := fun m => by
    unfold Memory.consCell
    split
    · rfl
    · simp [Memory.read, hab]
  induction m with
  | nil => exact hcons []
  | cons c m ih =>
    unfold Memory.write
    split
    · exact hcons _
    · split
      · rename_i _ heq
        rw [hcons]
        simp [Memory.read, ← heq, hab]
      · simp [Memory.read, ih]

/-- The entries of a written memory are the written cell and old entries. -/
theorem Memory.mem_write {m : Memory} {a : Nat} {v : Byte} {c : Host.Cell} (h : c ∈ m.write a v) :
    (c = (a, v) ∧ v ≠ Memory.unlisted) ∨ c ∈ m := by
  induction m with
  | nil =>
    unfold Memory.write Memory.consCell at h
    split at h <;> simp_all
  | cons k m ih =>
    unfold Memory.write Memory.consCell at h
    split at h
    · split at h
      · exact .inr h
      · rcases List.mem_cons.mp h with h | h
        · exact .inl ⟨h, ‹_›⟩
        · exact .inr h
    · split at h
      · split at h
        · exact .inr (List.mem_cons_of_mem _ h)
        · rcases List.mem_cons.mp h with h | h
          · exact .inl ⟨h, ‹_›⟩
          · exact .inr (List.mem_cons_of_mem _ h)
      · rcases List.mem_cons.mp h with h | h
        · exact .inr (h ▸ List.mem_cons_self)
        · exact (ih h).imp_right (List.mem_cons_of_mem _)

/-- A write keeps the addresses strictly rising. -/
theorem Memory.write_rising {m : Memory} (h : m.Pairwise (fun c c' => c.1 < c'.1)) (a : Nat) (v : Byte) :
    (m.write a v).Pairwise (fun c c' => c.1 < c'.1) := by
  induction m with
  | nil => unfold Memory.write Memory.consCell; split <;> simp
  | cons k m ih =>
    have hk := List.pairwise_cons.mp h
    unfold Memory.write Memory.consCell
    split
    · rename_i hlt
      split
      · exact h
      · refine List.pairwise_cons.mpr ⟨fun c hc => ?_, h⟩
        rcases List.mem_cons.mp hc with rfl | hc
        · exact hlt
        · exact Nat.lt_trans hlt (hk.1 c hc)
    · split
      · rename_i _ heq
        split
        · exact hk.2
        · exact List.pairwise_cons.mpr ⟨fun c hc => heq ▸ hk.1 c hc, hk.2⟩
      · rename_i hlt hne
        refine List.pairwise_cons.mpr ⟨fun c hc => ?_, ih hk.2⟩
        rcases Memory.mem_write hc with ⟨rfl, -⟩ | hc
        · show k.1 < a; omega
        · exact hk.1 c hc

/-- A write below 256 keeps the canonical form. -/
theorem Memory.write_wf {m : Memory} (h : m.wf) {a : Nat} (ha : a < 256) (v : Byte) : (m.write a v).wf := by
  refine ⟨Memory.write_rising h.1 a v, fun c hc => ?_⟩
  rcases Memory.mem_write hc with ⟨rfl, hv⟩ | hc
  · exact ⟨ha, hv⟩
  · exact h.2 c hc

/-- The memory after reset is canonical. -/
theorem reset_mem_wf : State.reset.mem.wf := by decide

/-- Two canonical memories that read alike everywhere are the same list. -/
theorem Memory.ext_read {m m' : Memory} (h : m.wf) (h' : m'.wf) (hr : ∀ a, m.read a = m'.read a) : m = m' := by
  induction m generalizing m' with
  | nil =>
    cases m' with
    | nil => rfl
    | cons c m' =>
      have := hr c.1
      simp [Memory.read] at this
      exact absurd this.symm (h'.2 c (by simp)).2
  | cons c m ih =>
    obtain ⟨hc, hp⟩ := List.pairwise_cons.mp h.1
    cases m' with
    | nil =>
      have := hr c.1
      simp [Memory.read] at this
      exact absurd this (h.2 c (by simp)).2
    | cons c' m' =>
      obtain ⟨hc', hp'⟩ := List.pairwise_cons.mp h'.1
      have hkey : c.1 = c'.1 := by
        rcases Nat.lt_trichotomy c.1 c'.1 with hlt | heq | hlt
        · have := hr c.1
          rw [Memory.read_below (m := c' :: m') (fun d hd => by
            rcases List.mem_cons.mp hd with rfl | hd
            · exact hlt
            · exact Nat.lt_trans hlt (hc' d hd))] at this
          simp [Memory.read] at this
          exact absurd this (h.2 c (by simp)).2
        · exact heq
        · have := hr c'.1
          rw [Memory.read_below (m := c :: m) (fun d hd => by
            rcases List.mem_cons.mp hd with rfl | hd
            · exact hlt
            · exact Nat.lt_trans hlt (hc d hd))] at this
          simp [Memory.read] at this
          exact absurd this.symm (h'.2 c' (by simp)).2
      have hval : c.2 = c'.2 := by
        have := hr c.1
        simpa [Memory.read, hkey] using this
      have hcc : c = c' := Prod.ext hkey hval
      subst hcc
      congr 1
      refine ih ⟨hp, fun d hd => h.2 d (by simp [hd])⟩ ⟨hp', fun d hd => h'.2 d (by simp [hd])⟩ fun a => ?_
      by_cases ha : c.1 = a
      · subst ha
        rw [Memory.read_below hc, Memory.read_below hc']
      · simpa [Memory.read, ha] using hr a

/-- A written cell reads the value written, every other cell as before. -/
theorem State.memWrite_memRead {s : State} (h : s.mem.wf) (a : Fin 256) (v : Byte) (b : Fin 256) :
    (s.memWrite a v).memRead b = if b = a then v else s.memRead b := by
  simp only [State.memRead, State.memWrite, Memory.read_write h.1, Fin.ext_iff]

end Sys2Proof.Machine
end

