-- ==== Sys2Proof/Laws/Exec.lean ====
section
/-! SUPPORT. Everything an instruction can do, said once: `exec` answers a next state, which is the raising of the fault
`faultOf` names, or else the effect `effectOf` names (`exec_eq`). Proofs about exec cite this and never unfold a
meaning. -/

namespace Sys2Proof.Machine

/-! What each check does. -/

@[simp] theorem checkReg_ok {s : State} {i : Nat} (h : i < 8) (k : Fin 8 → Result) : s.checkReg i k = k ⟨i, h⟩ := by
  simp [State.checkReg, h]

@[simp] theorem checkReg_bad {s : State} {i : Nat} (h : 8 ≤ i) (k : Fin 8 → Result) :
    s.checkReg i k = .next (s.raise (.outOfRangeRegister i)) := by
  simp [State.checkReg, Nat.not_lt.mpr h]

@[simp] theorem checkAddr_ok {s : State} {a : Nat} (h : a < 256) (k : Fin 256 → Result) :
    s.checkAddr a k = k ⟨a, h⟩ := by
  simp [State.checkAddr, h]

@[simp] theorem checkAddr_bad {s : State} {a : Nat} (h : 256 ≤ a) (k : Fin 256 → Result) :
    s.checkAddr a k = .next (s.raise (.outOfRangeMemory a)) := by
  simp [State.checkAddr, Nat.not_lt.mpr h]

/-- The two halves of a taken jump land exactly on the target (spec/42_control_transfer.md R93). -/
theorem jumpTo_pos {s : State} {t : Nat} (h : t ≠ 0) (policy : Jump0Policy) :
    s.jumpTo policy t = .next (s.setPc t) := by
  have : t - 1 + 1 = t := Nat.succ_pred_eq_of_ne_zero h
  simp [State.jumpTo, h, State.advance, State.setPc, this]

/-- Target 0 under the spec's policy. -/
theorem jumpTo_zero (s : State) : s.jumpTo .fault 0 = .next (s.raise (.jumpUnderflow s.pc)) := rfl

/-- Target 0 under the other policy lands on index 0 (spec/42_control_transfer.md R94). -/
theorem jumpTo_zero_wrap (s : State) : s.jumpTo .wrap 0 = .next (s.setPc 0) := rfl

/-! The fault of each instruction, by its checks in order, and its effect when none fails. -/

/-- The first register check that fails among `lhs`, `rhs`, `dst`. -/
def arithFault (d l r : Nat) : Option Fault :=
  if 8 ≤ l then some (.outOfRangeRegister l)
  else if 8 ≤ r then some (.outOfRangeRegister r)
  else if 8 ≤ d then some (.outOfRangeRegister d)
  else none

/-- The fault of a jump: taken with target 0. -/
def jumpFault (taken : Bool) (t k : Nat) : Option Fault :=
  if taken = true ∧ t = 0 then some (.jumpUnderflow k) else none

/-- The fault an instruction raises in a state, if any. -/
def faultOf (i : Instr) (s : State) : Option Fault :=
  match i with
  | .add d l r | .sub d l r | .and d l r | .or d l r | .xor d l r | .not d l r => arithFault d l r
  | .move d _ | .print d => if 8 ≤ d then some (.outOfRangeRegister d) else none
  | .endRun => none
  | .store a l =>
      if 8 ≤ l then some (.outOfRangeRegister l) else if 256 ≤ a then some (.outOfRangeMemory a) else none
  | .load d a =>
      if 256 ≤ a then some (.outOfRangeMemory a) else if 8 ≤ d then some (.outOfRangeRegister d) else none
  | .jumpIfZero t => jumpFault s.flags.z t s.pc
  | .jumpIfNotZero t => jumpFault (!s.flags.z) t s.pc
  | .jump t => jumpFault true t s.pc

/-- The register an index in range names. -/
def regIdx (i : Nat) : Fin 8 := ⟨i % 8, Nat.mod_lt i (by decide)⟩

/-- The cell an address in range names. -/
def memIdx (a : Nat) : Fin 256 := ⟨a % 256, Nat.mod_lt a (by decide)⟩

/-- The effect of an arithmetic sub-operation. -/
def arithEffect (op : AluOp) (d l r : Nat) (s : State) : State :=
  ((s.setFlags (aluFlags op (s.reg (regIdx l)) (s.reg (regIdx r)))).setReg (regIdx d)
    (aluResult op (s.reg (regIdx l)) (s.reg (regIdx r)))).advance

/-- The effect of a jump. -/
def jumpEffect (taken : Bool) (t : Nat) (s : State) : State := s.setPc (if taken then t else s.pc + 1)

/-- The effect of an instruction whose checks all pass. -/
def effectOf (i : Instr) (s : State) : State :=
  match i with
  | .add d l r => arithEffect .add d l r s
  | .sub d l r => arithEffect .sub d l r s
  | .and d l r => arithEffect .and d l r s
  | .or d l r => arithEffect .or d l r s
  | .xor d l r => arithEffect .xor d l r s
  | .not d l r => arithEffect .not d l r s
  | .move d v => (s.setReg (regIdx d) (trunc8 v)).advance
  | .print d => (s.emit (.out (s.reg (regIdx d)))).advance
  | .endRun => (s.emit .haltNotice).setStatus .halted
  | .store a l => (s.memWrite (memIdx a) (s.reg (regIdx l))).advance
  | .load d a => (s.setReg (regIdx d) (s.memRead (memIdx a))).advance
  | .jumpIfZero t => jumpEffect s.flags.z t s
  | .jumpIfNotZero t => jumpEffect (!s.flags.z) t s
  | .jump t => jumpEffect true t s

/-- The next state of an instruction: the fault raised, or the effect. -/
def nextOf (i : Instr) (s : State) : State :=
  match faultOf i s with
  | some f => s.raise f
  | none => effectOf i s

theorem regIdx_eq {i : Nat} (h : i < 8) : regIdx i = ⟨i, h⟩ := Fin.ext (Nat.mod_eq_of_lt h)

theorem memIdx_eq {a : Nat} (h : a < 256) : memIdx a = ⟨a, h⟩ := Fin.ext (Nat.mod_eq_of_lt h)

/-- The template of the six arithmetic sub-operations. -/
theorem execArith_eq (op : AluOp) (d l r : Nat) (s : State) :
    execArith op d l r s = .next (match arithFault d l r with | some f => s.raise f | none => arithEffect op d l r s) := by
  unfold execArith arithFault arithEffect
  by_cases hl : l < 8
  · by_cases hr : r < 8
    · by_cases hd : d < 8
      · simp [hl, hr, hd, Nat.not_le.mpr hl, Nat.not_le.mpr hr, Nat.not_le.mpr hd, regIdx_eq hl, regIdx_eq hr, regIdx_eq hd]
      · simp [hl, hr, Nat.not_lt.mp hd, Nat.not_le.mpr hl, Nat.not_le.mpr hr]
    · simp [hl, Nat.not_lt.mp hr, Nat.not_le.mpr hl]
  · simp [Nat.not_lt.mp hl]

/-- The template of the three jumps. -/
theorem jumpIf_eq (taken : Bool) (t : Nat) (s : State) :
    s.jumpIf taken t = .next (match jumpFault taken t s.pc with | some f => s.raise f | none => jumpEffect taken t s) := by
  unfold State.jumpIf jumpFault jumpEffect
  cases taken with
  | false => simp [State.advance]
  | true =>
    by_cases ht : t = 0
    · subst ht; simp [Config.jump0Policy, jumpTo_zero]
    · simp [ht, jumpTo_pos ht]

/-- Every instruction answers a next state: the fault its first failing check raises, or its effect. -/
theorem exec_eq (i : Instr) (s : State) : exec i s = .next (nextOf i s) := by
  cases i with
  | add d l r => exact execArith_eq .add d l r s
  | sub d l r => exact execArith_eq .sub d l r s
  | and d l r => exact execArith_eq .and d l r s
  | or d l r => exact execArith_eq .or d l r s
  | xor d l r => exact execArith_eq .xor d l r s
  | not d l r => exact execArith_eq .not d l r s
  | move d v =>
    by_cases hd : d < 8
    · simp [exec, execMove, nextOf, faultOf, effectOf, hd, Nat.not_le.mpr hd, regIdx_eq hd]
    · simp [exec, execMove, nextOf, faultOf, Nat.not_lt.mp hd]
  | print d =>
    by_cases hd : d < 8
    · simp [exec, execPrint, nextOf, faultOf, effectOf, hd, Nat.not_le.mpr hd, regIdx_eq hd]
    · simp [exec, execPrint, nextOf, faultOf, Nat.not_lt.mp hd]
  | endRun => rfl
  | store a l =>
    by_cases hl : l < 8
    · by_cases ha : a < 256
      · simp [exec, execStore, nextOf, faultOf, effectOf, hl, ha, Nat.not_le.mpr hl, Nat.not_le.mpr ha, regIdx_eq hl,
          memIdx_eq ha]
      · simp [exec, execStore, nextOf, faultOf, hl, Nat.not_lt.mp ha, Nat.not_le.mpr hl]
    · simp [exec, execStore, nextOf, faultOf, Nat.not_lt.mp hl]
  | load d a =>
    by_cases ha : a < 256
    · by_cases hd : d < 8
      · simp [exec, execLoad, nextOf, faultOf, effectOf, hd, ha, Nat.not_le.mpr hd, Nat.not_le.mpr ha, regIdx_eq hd,
          memIdx_eq ha]
      · simp [exec, execLoad, nextOf, faultOf, ha, Nat.not_lt.mp hd, Nat.not_le.mpr ha]
    · simp [exec, execLoad, nextOf, faultOf, Nat.not_lt.mp ha]
  | jumpIfZero t => exact jumpIf_eq s.flags.z t s
  | jumpIfNotZero t => exact jumpIf_eq (!s.flags.z) t s
  | jump t => exact jumpIf_eq true t s

/-- An instruction none of whose checks fails has its effect. -/
theorem exec_ok {i : Instr} {s : State} (h : faultOf i s = none) : exec i s = .next (effectOf i s) := by
  simp [exec_eq, nextOf, h]

/-- An instruction whose check fails raises that fault. -/
theorem exec_fault {i : Instr} {s : State} {f : Fault} (h : faultOf i s = some f) : exec i s = .next (s.raise f) := by
  simp [exec_eq, nextOf, h]

/-- The inversion of exec. -/
theorem exec_next {i : Instr} {s t : State} (h : exec i s = .next t) :
    (∃ f, faultOf i s = some f ∧ t = s.raise f) ∨ (faultOf i s = none ∧ t = effectOf i s) := by
  rw [exec_eq] at h
  cases h
  unfold nextOf
  cases hf : faultOf i s with
  | some f => exact .inl ⟨f, rfl, rfl⟩
  | none => exact .inr ⟨rfl, rfl⟩

/-- The faults of an arithmetic sub-operation. -/
theorem arithFault_some {d l r : Nat} {f : Fault} (h : arithFault d l r = some f) :
    ∃ i, f = .outOfRangeRegister i ∧ 8 ≤ i ∧ (i = l ∨ i = r ∨ i = d) := by
  unfold arithFault at h
  split at h
  · exact ⟨l, by simpa using h.symm, ‹_›, .inl rfl⟩
  · split at h
    · exact ⟨r, by simpa using h.symm, ‹_›, .inr (.inl rfl)⟩
    · split at h
      · exact ⟨d, by simpa using h.symm, ‹_›, .inr (.inr rfl)⟩
      · cases h

/-- An arithmetic sub-operation faults on no index exactly when all three are in range. -/
theorem arithFault_none {d l r : Nat} : arithFault d l r = none ↔ d < 8 ∧ l < 8 ∧ r < 8 := by
  unfold arithFault
  split
  · simp; omega
  · split
    · simp; omega
    · split
      · simp; omega
      · simp; omega

/-- The faults of a jump. -/
theorem jumpFault_some {taken : Bool} {t k : Nat} {f : Fault} (h : jumpFault taken t k = some f) :
    f = .jumpUnderflow k ∧ taken = true ∧ t = 0 := by
  unfold jumpFault at h
  split at h
  · exact ⟨by simpa using h.symm, ‹_›⟩
  · cases h

/-- A jump does not fault exactly when it is not taken or its target is not 0. -/
theorem jumpFault_none {taken : Bool} {t k : Nat} :
    jumpFault taken t k = none ↔ ¬ (taken = true ∧ t = 0) := by
  unfold jumpFault
  split <;> simp_all

end Sys2Proof.Machine
end

