-- ==== Sys2Proof/Laws/PerInstr.lean ====
section
/-! SUPPORT. One lemma per instruction of the family RecordRoundTrip: the canonical record of an instruction decodes to
the instruction, and its opcode is at most 13 (spec/30_encoding.md R46, R47, R53). -/

namespace Sys2Proof

/-- The canonical record decodes back, and its opcode value names an operation. -/
def Laws.RecordRoundTrip.Statement (i : Instr) : Prop :=
  i.toRecord.decode = .ok i ∧ i.toRecord.opcode ≤ 13

/-- The opcode number of an operation is 0 to 13. -/
theorem Operation.opcode_le (o : Operation) : o.opcode ≤ 13 := by
  cases o with
  | arith op => cases op <;> decide
  | _ => decide

/-- So is that of an instruction's record. -/
theorem Instr.toRecord_opcode_le (i : Instr) : i.toRecord.opcode ≤ 13 := Operation.opcode_le i.operation

theorem Laws.RecordRoundTrip.add (d l r : Nat) : Laws.RecordRoundTrip.Statement (.add d l r) := ⟨rfl, Instr.toRecord_opcode_le _⟩
theorem Laws.RecordRoundTrip.sub (d l r : Nat) : Laws.RecordRoundTrip.Statement (.sub d l r) := ⟨rfl, Instr.toRecord_opcode_le _⟩
theorem Laws.RecordRoundTrip.and (d l r : Nat) : Laws.RecordRoundTrip.Statement (.and d l r) := ⟨rfl, Instr.toRecord_opcode_le _⟩
theorem Laws.RecordRoundTrip.or (d l r : Nat) : Laws.RecordRoundTrip.Statement (.or d l r) := ⟨rfl, Instr.toRecord_opcode_le _⟩
theorem Laws.RecordRoundTrip.xor (d l r : Nat) : Laws.RecordRoundTrip.Statement (.xor d l r) := ⟨rfl, Instr.toRecord_opcode_le _⟩
theorem Laws.RecordRoundTrip.not (d l r : Nat) : Laws.RecordRoundTrip.Statement (.not d l r) := ⟨rfl, Instr.toRecord_opcode_le _⟩
theorem Laws.RecordRoundTrip.move (d v : Nat) : Laws.RecordRoundTrip.Statement (.move d v) := ⟨rfl, Instr.toRecord_opcode_le _⟩
theorem Laws.RecordRoundTrip.print (d : Nat) : Laws.RecordRoundTrip.Statement (.print d) := ⟨rfl, Instr.toRecord_opcode_le _⟩
theorem Laws.RecordRoundTrip.endRun : Laws.RecordRoundTrip.Statement .endRun := ⟨rfl, Instr.toRecord_opcode_le _⟩
theorem Laws.RecordRoundTrip.store (a l : Nat) : Laws.RecordRoundTrip.Statement (.store a l) := ⟨rfl, Instr.toRecord_opcode_le _⟩
theorem Laws.RecordRoundTrip.load (d a : Nat) : Laws.RecordRoundTrip.Statement (.load d a) := ⟨rfl, Instr.toRecord_opcode_le _⟩
theorem Laws.RecordRoundTrip.jumpIfZero (t : Nat) : Laws.RecordRoundTrip.Statement (.jumpIfZero t) := ⟨rfl, Instr.toRecord_opcode_le _⟩
theorem Laws.RecordRoundTrip.jumpIfNotZero (t : Nat) : Laws.RecordRoundTrip.Statement (.jumpIfNotZero t) :=
  ⟨rfl, Instr.toRecord_opcode_le _⟩
theorem Laws.RecordRoundTrip.jump (t : Nat) : Laws.RecordRoundTrip.Statement (.jump t) := ⟨rfl, Instr.toRecord_opcode_le _⟩

/-- The family, over all instructions. -/
theorem Laws.record_round_trip (i : Instr) : Laws.RecordRoundTrip.Statement i := by
  cases i with
  | add d l r => exact Laws.RecordRoundTrip.add d l r
  | sub d l r => exact Laws.RecordRoundTrip.sub d l r
  | and d l r => exact Laws.RecordRoundTrip.and d l r
  | or d l r => exact Laws.RecordRoundTrip.or d l r
  | xor d l r => exact Laws.RecordRoundTrip.xor d l r
  | not d l r => exact Laws.RecordRoundTrip.not d l r
  | move d v => exact Laws.RecordRoundTrip.move d v
  | print d => exact Laws.RecordRoundTrip.print d
  | endRun => exact Laws.RecordRoundTrip.endRun
  | store a l => exact Laws.RecordRoundTrip.store a l
  | load d a => exact Laws.RecordRoundTrip.load d a
  | jumpIfZero t => exact Laws.RecordRoundTrip.jumpIfZero t
  | jumpIfNotZero t => exact Laws.RecordRoundTrip.jumpIfNotZero t
  | jump t => exact Laws.RecordRoundTrip.jump t

end Sys2Proof
end

