-- ==== Sys2Proof/Laws/Step.lean ====
section
/-! SUPPORT. Everything a step can do, said once (`step_cases`), and what runs of several steps are made of. -/

namespace Sys2Proof.Machine

/-- A step from a final status changes nothing. -/
theorem step_final {s : State} (h : s.status ≠ .running) : step s = .next s := by
  unfold step cycle
  split
  · exact absurd ‹_› h
  all_goals rfl

/-- A step at or beyond the end of the program. -/
theorem step_exhausted {s : State} (hs : s.status = .running) (h : s.prog[s.pc]? = none) : step s = .next s.exhaust := by
  simp [step, cycle, hs, State.fetch, h]

/-- A step on a record that is no instruction. -/
theorem step_illegal {s : State} {r : Record} {e : DecodeError} (hs : s.status = .running) (h : s.prog[s.pc]? = some r)
    (he : r.decode = .error e) : step s = .next (s.raise (faultOfDecode e)) := by
  simp [step, cycle, hs, State.fetch, h, he]

/-- A step on a record that decodes runs the instruction. -/
theorem step_runs {s : State} {r : Record} {i : Instr} (hs : s.status = .running) (h : s.prog[s.pc]? = some r)
    (hi : r.decode = .ok i) : step s = exec i s := by
  simp [step, cycle, hs, State.fetch, h, hi]

/-- Everything a step can do. -/
theorem step_cases {s t : State} (h : step s = .next t) :
    (s.status ≠ .running ∧ t = s) ∨
    (s.status = .running ∧ s.prog[s.pc]? = none ∧ t = s.exhaust) ∨
    (∃ r v, s.status = .running ∧ s.prog[s.pc]? = some r ∧ r.decode = .error (.illegalOpcode v) ∧
      t = s.raise (.illegalOpcode v)) ∨
    (∃ r i, s.status = .running ∧ s.prog[s.pc]? = some r ∧ r.decode = .ok i ∧ t = nextOf i s) := by
  by_cases hs : s.status = .running
  · cases hp : s.prog[s.pc]? with
    | none =>
      rw [step_exhausted hs hp] at h
      cases h
      exact .inr (.inl ⟨hs, rfl, rfl⟩)
    | some r =>
      cases hd : r.decode with
      | error e =>
        rw [step_illegal hs hp hd] at h
        cases h
        obtain ⟨v⟩ := e
        exact .inr (.inr (.inl ⟨r, v, hs, rfl, hd, rfl⟩))
      | ok i =>
        rw [step_runs hs hp hd, exec_eq] at h
        cases h
        exact .inr (.inr (.inr ⟨r, i, hs, rfl, hd, rfl⟩))
  · rw [step_final hs] at h
    cases h
    exact .inl ⟨hs, rfl⟩

/-- A run of no step. -/
theorem runsTo_zero {s t : State} : s.runsTo 0 t ↔ s = t :=
  ⟨fun h => by cases h; rfl, fun h => h ▸ rfl⟩

/-- A run of one more step begins with a step. -/
theorem runsTo_succ {s t : State} {k : Nat} : s.runsTo (k + 1) t ↔ ∃ u, step s = .next u ∧ u.runsTo k t := by
  have hrun := Host.Core.run.eq_2 Sys2Proof.core s k
  have hstep : Sys2Proof.core.step s = step s := rfl
  unfold State.runsTo
  rw [hrun]
  cases h : step s with
  | next u =>
    rw [hstep.trans h]
    exact ⟨fun hr => ⟨u, rfl, hr⟩, fun ⟨v, hv, hr⟩ => by cases hv; exact hr⟩
  | fault r =>
    rw [hstep.trans h]
    exact ⟨fun hr => (nomatch hr), fun ⟨_, hv, _⟩ => (nomatch hv)⟩
  | refused r =>
    rw [hstep.trans h]
    exact ⟨fun hr => (nomatch hr), fun ⟨_, hv, _⟩ => (nomatch hv)⟩

/-- What every step keeps, every run keeps. -/
theorem runsTo_keeps {P : State → Prop} (hstep : ∀ s t, P s → step s = .next t → P t) {k : Nat} {s t : State}
    (hs : P s) (h : s.runsTo k t) : P t := by
  induction k generalizing s with
  | zero => exact runsTo_zero.mp h ▸ hs
  | succ k ih =>
    obtain ⟨u, hu, hr⟩ := runsTo_succ.mp h
    exact ih (hstep s u hs hu) hr

/-- The next instruction is the decoded record at `pc` of a running machine. -/
theorem nextInstr_some {s : State} {i : Instr} (h : s.nextInstr = some i) :
    s.status = .running ∧ ∃ r, s.prog[s.pc]? = some r ∧ r.decode = .ok i := by
  unfold State.nextInstr State.fetch at h
  split at h
  · split at h
    · split at h
      · cases h
        exact ⟨‹_›, _, ‹_›, ‹_›⟩
      · cases h
    · cases h
  all_goals cases h

/-- A running machine whose record at `pc` decodes runs that instruction next. -/
theorem nextInstr_of {s : State} {r : Record} {i : Instr} (hs : s.status = .running) (h : s.prog[s.pc]? = some r)
    (hi : r.decode = .ok i) : s.nextInstr = some i := by
  simp [State.nextInstr, hs, State.fetch, h, hi]

/-- What holds between a state and itself, its exhaustion, any fault raised in it, and the next state of its next
instruction, holds between a state and the one its step answers. -/
theorem step_lift {s t : State} (h : step s = .next t) {P : State → Prop} (hself : P s) (hexhaust : P s.exhaust)
    (hraise : ∀ f, P (s.raise f)) (hexec : ∀ i, s.nextInstr = some i → P (nextOf i s)) : P t := by
  rcases step_cases h with ⟨_, rfl⟩ | ⟨_, _, rfl⟩ | ⟨r, v, _, _, _, rfl⟩ | ⟨r, i, hs, hr, hd, rfl⟩
  · exact hself
  · exact hexhaust
  · exact hraise _
  · exact hexec i (nextInstr_of hs hr hd)

/-- A step runs the next instruction. -/
theorem step_nextInstr {s : State} {i : Instr} (h : s.nextInstr = some i) : step s = exec i s := by
  obtain ⟨hs, r, hr, hd⟩ := nextInstr_some h
  exact step_runs hs hr hd

end Sys2Proof.Machine
end

