-- ==== Sys2Proof/Machine/Assembly.lean ====
section
/-! DEFINITION. The assembly spelling of an instruction (spec/30_encoding.md R61): a notation of the spec, read by no
step (log 23). -/

namespace Sys2Proof

/-- The spelling of register `n`. -/
def asmReg (n : Nat) : String := "r" ++ toString n

/-- The operands of a three-register instruction. -/
def asmTriple (d l r : Nat) : String := asmReg d ++ ", " ++ asmReg l ++ ", " ++ asmReg r

/-- The syntax table of spec/30_encoding.md R61, operands decimal; NOT in its two-operand form when `rhs` is 0. -/
def Instr.assembly : Instr → String
  | .add d l r => "ADD " ++ asmTriple d l r
  | .sub d l r => "SUB " ++ asmTriple d l r
  | .and d l r => "AND " ++ asmTriple d l r
  | .or d l r => "OR " ++ asmTriple d l r
  | .xor d l r => "XOR " ++ asmTriple d l r
  | .not d l r => "NOT " ++ (if r = 0 then asmReg d ++ ", " ++ asmReg l else asmTriple d l r)
  | .move d v => "MOVE " ++ asmReg d ++ ", " ++ toString v
  | .print d => "PRINT " ++ asmReg d
  | .endRun => "END"
  | .store a l => "STORE [" ++ toString a ++ "], " ++ asmReg l
  | .load d a => "LOAD " ++ asmReg d ++ ", [" ++ toString a ++ "]"
  | .jumpIfZero t => "JZ @" ++ toString t
  | .jumpIfNotZero t => "JNZ @" ++ toString t
  | .jump t => "JUMP @" ++ toString t

end Sys2Proof
end

