-- ==== Sys2Proof/Tests/Slice0.lean ====
section
/-! SUPPORT. The model's own tests: words written out from the spec's encodings, ill-formed terms, one-step vectors of
spec/95_test_vectors.md, and one witness for the hypotheses of each statement. -/

namespace Sys2Proof.Tests

open Sys2Proof Sys2Proof.Machine

/-! Helpers. -/

/-- The next state of an outcome. -/
def nextState : Result → Option State
  | .next t => some t
  | .fault _ => none
  | .refused _ => none

/-- The start state of the vectors of spec/95_test_vectors.md section 2.2, at index 4 with two cells of memory set. -/
def vec : State :=
  { State.reset with regs := #v[10, 250, 0x0F, 0xF0, 128, 1, 0, 255], pc := 4, mem := [(16, 42), (200, 20)] }

/-- The same state with Z set. -/
def vecZ : State := { vec with flags := { c := false, z := true, n := false } }

/-- Registers 0 to 7 and C, Z, N after an instruction from a state. -/
def regsFlags (i : Instr) (s : State) : Option (List Byte × Bool × Bool × Bool) :=
  (nextState (exec i s)).map fun t => (t.regs.toList, t.flags.c, t.flags.z, t.flags.n)

/-- The counter and the status after an instruction from a state. -/
def pcStatus (i : Instr) (s : State) : Option (Nat × Status) :=
  (nextState (exec i s)).map fun t => (t.pc, t.status)

/-- The state `k` steps on. -/
def stepped : Nat → State → State
  | 0, s => s
  | k + 1, s => match step s with
    | .next t => stepped k t
    | .fault _ => s
    | .refused _ => s

/-- A running state is not faulted. -/
theorem notFaulted_of_running {s : State} (h : s.status = .running) : s.notFaulted :=
  fun f hf => by rw [h] at hf; cases hf

/-! Decoding: the worked words of spec/30_encoding.md R63, one per instruction, and the edges of
spec/95_test_vectors.md section 2.7. -/

theorem test_decode_add : decode 0x0000000200000001 = .ok (.add 2 0 1) := by decide
theorem test_decode_sub : decode 0x0001000000000001 = .ok (.sub 0 0 1) := by decide
theorem test_decode_and : decode 0x0002000300040005 = .ok (.and 3 4 5) := by decide
theorem test_decode_or : decode 0x0003000700060006 = .ok (.or 7 6 6) := by decide
theorem test_decode_xor : decode 0x0004000100010001 = .ok (.xor 1 1 1) := by decide
theorem test_decode_not : decode 0x0005000200030000 = .ok (.not 2 3 0) := by decide
theorem test_decode_move : decode 0x0006000100140000 = .ok (.move 1 20) := by decide
theorem test_decode_print : decode 0x0007000200000000 = .ok (.print 2) := by decide
theorem test_decode_end : decode 0x0008000000000000 = .ok .endRun := by decide
theorem test_decode_store : decode 0x000900C800010000 = .ok (.store 200 1) := by decide
theorem test_decode_load : decode 0x000A000200C80000 = .ok (.load 2 200) := by decide
theorem test_decode_jump_if_zero : decode 0x000B000000050000 = .ok (.jumpIfZero 5) := by decide
theorem test_decode_jump_if_not_zero : decode 0x000C000000020000 = .ok (.jumpIfNotZero 2) := by decide
theorem test_decode_jump : decode 0x000D000000070000 = .ok (.jump 7) := by decide
/-- Written bit by bit: opcode 2 in bits 63 to 48, then dst 7, lhs 5, rhs 3. -/
theorem test_decode_and_bits :
    decode 0b0000000000000010000000000000011100000000000001010000000000000011 = .ok (.and 7 5 3) := by decide
theorem test_decode_illegal : decode 0x000E000000000000 = .error (.illegalOpcode 14) ∧
    decode 0xFFFF000000000000 = .error (.illegalOpcode 65535) := by decide
theorem test_decode_out_of_range_index : decode 0x0000000800000000 = .ok (.add 8 0 0) := by decide
theorem test_encode_store : encode (.store 200 1) = 0x000900C800010000 := by decide
theorem test_table_word : decodeTableWord 64 0x000D000000010000 = some (.jump 1) ∧
    decodeTableWord 64 0x000E000000000000 = none := by decide
/-- The selects of the ALU (spec/30_encoding.md R56). -/
theorem test_alu_selects : [AluOp.add, .sub, .and, .or, .xor, .not].map AluOp.select = [0, 1, 2, 3, 4, 5] := by decide
/-- The spellings of spec/30_encoding.md R63. -/
theorem test_assembly : [Instr.add 2 0 1, .not 2 3 0, .move 1 20, .store 200 1, .load 2 200, .jumpIfZero 5].map
    Instr.assembly = ["ADD r2, r0, r1", "NOT r2, r3", "MOVE r1, 20", "STORE [200], r1", "LOAD r2, [200]", "JZ @5"] := by
  decide

/-! Well-formedness: an ill-formed term for each check. -/

theorem test_wf_arith : (Instr.add 65536 0 0).wellFormed 16 = false ∧ (Instr.sub 0 65536 0).wellFormed 16 = false ∧
    (Instr.not 0 0 65536).wellFormed 16 = false ∧ (Instr.xor 65535 65535 65535).wellFormed 16 = true := by decide
theorem test_wf_move : (Instr.move 65536 0).wellFormed 16 = false ∧ (Instr.move 0 65536).wellFormed 16 = false := by
  decide
theorem test_wf_memory : (Instr.store 65536 0).wellFormed 16 = false ∧ (Instr.store 0 65536).wellFormed 16 = false ∧
    (Instr.load 65536 0).wellFormed 16 = false ∧ (Instr.load 0 65536).wellFormed 16 = false := by decide
theorem test_wf_print_jump : (Instr.print 65536).wellFormed 16 = false ∧ (Instr.jump 65536).wellFormed 16 = false ∧
    (Instr.jumpIfZero 65536).wellFormed 16 = false ∧ (Instr.jumpIfNotZero 65536).wellFormed 16 = false := by decide
theorem test_wf_record : (Record.mk 14 0 0 0).wellFormed 16 = false ∧ (Record.mk 0 65536 0 0).wellFormed 16 = false ∧
    (Record.mk 0 0 65536 0).wellFormed 16 = false ∧ (Record.mk 0 0 0 65536).wellFormed 16 = false ∧
    (Record.mk 13 65535 65535 65535).wellFormed 16 = true := by decide
theorem test_wf_opcode_width : (Record.mk 13 0 0 0).wellFormed 3 = false := by decide
theorem test_wf_program_length : programWellFormed 4 1 [⟨8, 0, 0, 0⟩, ⟨8, 0, 0, 0⟩] = false ∧
    programWellFormed 4 1 [⟨8, 0, 0, 0⟩] = true := by decide
theorem test_ranges : (Instr.add 8 0 0).rangesOk = false ∧ (Instr.move 8 0).rangesOk = false ∧
    (Instr.print 8).rangesOk = false ∧ (Instr.store 256 0).rangesOk = false ∧ (Instr.store 0 8).rangesOk = false ∧
    (Instr.load 8 0).rangesOk = false ∧ (Instr.load 0 256).rangesOk = false ∧ (Instr.jump 0).rangesOk = false ∧
    programRangesOk [⟨14, 0, 0, 0⟩] = false := by decide

/-! The instructions, from spec/95_test_vectors.md sections 2.2 to 2.6. -/

theorem test_add_wraps : regsFlags (.add 6 0 1) vec =
    some ([10, 250, 0x0F, 0xF0, 128, 1, 4, 255], true, false, false) := by decide
theorem test_add_same_register : regsFlags (.add 4 4 4) vec =
    some ([10, 250, 0x0F, 0xF0, 0, 1, 0, 255], true, true, false) := by decide
theorem test_sub_borrows : regsFlags (.sub 6 0 1) vec =
    some ([10, 250, 0x0F, 0xF0, 128, 1, 16, 255], true, false, false) := by decide
theorem test_sub_order : regsFlags (.sub 6 1 0) vec =
    some ([10, 250, 0x0F, 0xF0, 128, 1, 240, 255], false, false, true) := by decide
theorem test_and_disjoint : regsFlags (.and 7 2 3) vec =
    some ([10, 250, 0x0F, 0xF0, 128, 1, 0, 0], false, true, false) := by decide
theorem test_or_union : regsFlags (.or 6 2 3) vec =
    some ([10, 250, 0x0F, 0xF0, 128, 1, 255, 255], false, false, true) := by decide
theorem test_xor_complements : regsFlags (.xor 6 2 7) vec =
    some ([10, 250, 0x0F, 0xF0, 128, 1, 240, 255], false, false, true) := by decide
theorem test_not_ignores_rhs_value : regsFlags (.not 6 6 1) vec =
    some ([10, 250, 0x0F, 0xF0, 128, 1, 255, 255], false, false, true) := by decide
theorem test_not_checks_rhs : pcStatus (.not 0 1 9) vec = some (4, .faulted (.outOfRangeRegister 9)) := by decide
theorem test_logic_clears_carry :
    ((nextState (exec (.and 2 2 7) { vec with flags := ⟨true, true, true⟩ })).map (·.flags)) =
      some ⟨false, false, false⟩ := by decide
theorem test_move_truncates : regsFlags (.move 0 300) vecZ =
    some ([44, 250, 0x0F, 0xF0, 128, 1, 0, 255], false, true, false) := by decide
theorem test_move_bad_register : pcStatus (.move 8 1) vec = some (4, .faulted (.outOfRangeRegister 8)) := by decide
theorem test_store_top : (nextState (exec (.store 255 7) vec)).map (·.mem) =
    some [(16, 42), (200, 20), (255, 255)] := by decide
theorem test_store_checks_register_first :
    pcStatus (.store 300 9) vec = some (4, .faulted (.outOfRangeRegister 9)) ∧
    pcStatus (.store 256 0) vec = some (4, .faulted (.outOfRangeMemory 256)) := by decide
theorem test_store_zero_keeps_canonical_form : (nextState (exec (.store 16 6) vec)).map (·.mem) = some [(200, 20)] := by
  decide
theorem test_load_reads : regsFlags (.load 2 200) vecZ =
    some ([10, 250, 20, 0xF0, 128, 1, 0, 255], false, true, false) := by decide
theorem test_load_checks_address_first :
    pcStatus (.load 9 300) vec = some (4, .faulted (.outOfRangeMemory 300)) ∧
    pcStatus (.load 8 0) vec = some (4, .faulted (.outOfRangeRegister 8)) := by decide
theorem test_jump : pcStatus (.jump 60000) vec = some (60000, .running) := by decide
theorem test_jump_to_zero : pcStatus (.jump 0) vec = some (4, .faulted (.jumpUnderflow 4)) := by decide
theorem test_jump_if_zero : pcStatus (.jumpIfZero 7) vecZ = some (7, .running) ∧
    pcStatus (.jumpIfZero 7) vec = some (5, .running) := by decide
theorem test_jump_if_zero_not_taken_to_zero : pcStatus (.jumpIfZero 0) vec = some (5, .running) ∧
    pcStatus (.jumpIfZero 0) vecZ = some (4, .faulted (.jumpUnderflow 4)) := by decide
theorem test_jump_if_not_zero : pcStatus (.jumpIfNotZero 2) vec = some (2, .running) ∧
    pcStatus (.jumpIfNotZero 2) vecZ = some (5, .running) := by decide
theorem test_jump_if_not_zero_to_zero : pcStatus (.jumpIfNotZero 0) vecZ = some (5, .running) ∧
    pcStatus (.jumpIfNotZero 0) vec = some (4, .faulted (.jumpUnderflow 4)) := by decide
theorem test_print : (nextState (exec (.print 7) vec)).map (·.output) = some [.out 255] := by decide
theorem test_print_bad_register : (nextState (exec (.print 8) vec)).map (fun t => (t.output, t.status)) =
    some ([], .faulted (.outOfRangeRegister 8)) := by decide
theorem test_end : (nextState (exec .endRun vec)).map (fun t => (t.pc, t.output, t.status)) =
    some (4, [.haltNotice], .halted) := by decide
/-- Fault order among three bad indices, and the codes (spec/95_test_vectors.md Q8, Q9; spec/60_exceptions.md R105). -/
theorem test_fault_order : pcStatus (.add 10 11 12) vec = some (4, .faulted (.outOfRangeRegister 11)) ∧
    pcStatus (.add 10 1 12) vec = some (4, .faulted (.outOfRangeRegister 12)) := by decide
theorem test_fault_codes : [Fault.outOfRangeRegister 8, .outOfRangeMemory 256, .jumpUnderflow 4, .illegalOpcode 14].map
    (fun f => (f.code, f.info)) = [(1, 8), (2, 256), (3, 4), (4, 14)] := by decide

/-! Steps. -/

theorem test_first_step_after_reset :
    (nextState (step (State.reset.withFetchWord 64 0x0006000100140000))).map (fun t => (t.regs.toList, t.pc)) =
      some ([0, 20, 0, 0, 0, 0, 0, 0], 1) := by decide
theorem test_placed_word_past_the_end :
    (nextState (step (vec.withFetchWord 64 0x0007000200000000))).map (fun t => (t.output, t.pc, t.prog.length)) =
      some ([.out 0x0F], 5, 5) := by decide
theorem test_step_illegal : (nextState (step (State.load [⟨14, 0, 0, 0⟩]))).map (fun t => (t.pc, t.status)) =
    some (0, .faulted (.illegalOpcode 14)) := by decide
theorem test_empty_program : nextState (step State.reset) = some { State.reset with status := .exhausted } := by decide
/-- Program S1 of the source, four steps (spec/95_test_vectors.md section 1.2). -/
theorem test_scenario_one :
    (stepped 4 (State.load [⟨6, 0, 1, 0⟩, ⟨6, 1, 2, 0⟩, ⟨0, 2, 0, 1⟩])).regs.toList = [1, 2, 3, 0, 0, 0, 0, 0] := by decide

/-! The Loader (spec/30_encoding.md R58 to R60, spec/95_test_vectors.md section 2.7). -/

theorem test_load_text : Loader.load 16 16 "-- note\n\n1101 0 1 0\n01101 000 0001 0".toList =
    .ok [⟨13, 0, 1, 0⟩, ⟨13, 0, 1, 0⟩] := by decide
theorem test_load_refuses_opcode : Loader.load 16 16 "1110 0 0 0".toList = .error (.unrecognizedOpcode 14) := by decide
theorem test_load_refuses_digit : Loader.load 16 16 "12 0 0 0".toList = .error .malformedLine ∧
    Loader.load 16 16 "110 0 1".toList = .error .malformedLine := by decide
theorem test_load_refuses_wide_field : Loader.load 4 4 "110 0 10000 0".toList = .error (.fieldTooWide 16) := by decide
theorem test_load_refuses_long_program :
    Loader.load 4 1 "1000 0 0 0\n1000 0 0 0".toList = .error .programTooLong := by decide

/-! Witnesses: states and operands that meet the hypotheses of each statement, every clause of it. -/

theorem witness_FirstStepFetchesIndexZero : (Record.mk 6 0 1 0).decode = .ok (.move 0 1) := by decide

theorem witness_StepRunsTheDecodedInstruction :
    ({ vec with status := .halted } : State).status ≠ .running ∧
    (vec.status = .running ∧ vec.pc ≥ vec.prog.length) ∧
    ((State.load [⟨14, 0, 0, 0⟩]).status = .running ∧ (State.load [⟨14, 0, 0, 0⟩]).prog[0]? = some ⟨14, 0, 0, 0⟩ ∧
      14 > 13) ∧
    ((State.load [⟨13, 0, 1, 0⟩]).prog[0]? = some ⟨13, 0, 1, 0⟩ ∧ (Record.mk 13 0 1 0).decode = .ok (.jump 1)) ∧
    (Record.mk 13 0 1 0).opcode ≤ 13 := by decide

theorem witness_FinalStatusIsLeftOnlyByReset : ({ vec with status := .exhausted } : State).status ≠ .running ∧
    ({ vec with status := .exhausted } : State).runsTo 3 { vec with status := .exhausted } := ⟨by decide, rfl⟩

theorem witness_PlacedWordRunsNext : (Instr.add 65535 7 0).wellFormed Config.fw = true := by decide

/-- For the six arithmetic statements: the last index in range, and the first one out of range in each field. -/
theorem witness_ArithRule : (∀ op, (nextState (exec (Claims.arithInstr op 7 7 7) vec)).map (·.pc) = some 5) ∧
    (∀ op, pcStatus (Claims.arithInstr op 7 8 7) vec = some (4, .faulted (.outOfRangeRegister 8))) ∧
    (∀ op, pcStatus (Claims.arithInstr op 7 7 8) vec = some (4, .faulted (.outOfRangeRegister 8))) ∧
    (∀ op, pcStatus (Claims.arithInstr op 8 7 7) vec = some (4, .faulted (.outOfRangeRegister 8))) := by
  refine ⟨?_, ?_, ?_, ?_⟩ <;> intro op <;> cases op <;> decide

theorem witness_AddWritesTheWrappedSum : (7 < 8 ∧ 0 < 8 ∧ 7 < 8) ∧ (8 > 7 ∨ 0 > 7 ∨ 0 > 7) := by decide
theorem witness_SubWritesTheWrappedDifference : (7 < 8 ∧ 0 < 8 ∧ 7 < 8) ∧ (8 > 7 ∨ 0 > 7 ∨ 0 > 7) := by decide
theorem witness_AndWritesTheBitwiseAnd : (7 < 8 ∧ 0 < 8 ∧ 7 < 8) ∧ (0 > 7 ∨ 8 > 7 ∨ 0 > 7) := by decide
theorem witness_OrWritesTheBitwiseOr : (7 < 8 ∧ 0 < 8 ∧ 7 < 8) ∧ (0 > 7 ∨ 8 > 7 ∨ 0 > 7) := by decide
theorem witness_XorWritesTheBitwiseExclusiveOr : (7 < 8 ∧ 0 < 8 ∧ 7 < 8) ∧ (0 > 7 ∨ 0 > 7 ∨ 8 > 7) := by decide
theorem witness_NotWritesTheComplement : (7 < 8 ∧ 0 < 8 ∧ 7 < 8) ∧ (0 > 7 ∨ 9 > 7 ∨ 0 > 7) := by decide
theorem witness_ArithmeticFaultsInFieldOrder : 8 > 7 ∧ (7 ≤ 7 ∧ 8 > 7) ∧ (7 ≤ 7 ∧ 7 ≤ 7 ∧ 8 > 7) := by decide
theorem witness_SubComparesUnsigned : (7 < 8 ∧ 0 < 8 ∧ 7 < 8) ∧
    (aluFlags .sub 5 5).z = true ∧ (aluFlags .sub 1 2).c = true ∧ (aluFlags .sub 2 1).c = false := by decide
theorem witness_AluFactsDerivedInTheSpec : (aluFlags .sub 5 5).z = true ∧ (aluFlags .sub 1 2).c = true := by decide

theorem witness_MoveWritesTheTruncatedImmediate : 7 < 8 ∧ 8 > 7 ∧
    pcStatus (.move 7 65535) vec = some (5, .running) := by decide
theorem witness_StoreWritesTheRegisterToTheCell : (255 < 256 ∧ 7 < 8 ∧ vec.mem.wf) ∧ 8 > 7 ∧ (7 ≤ 7 ∧ 256 > 255) ∧
    pcStatus (.store 255 7) vec = some (5, .running) := by decide
theorem witness_LoadWritesTheCellToTheRegister : (7 < 8 ∧ 255 < 256) ∧ 256 > 255 ∧ (255 ≤ 255 ∧ 8 > 7) ∧
    pcStatus (.load 7 255) vec = some (5, .running) := by decide
theorem witness_JumpLandsOnItsTarget : 1 ≥ 1 ∧ pcStatus (.jump 1) vec = some (1, .running) ∧
    pcStatus (.jump 0) vec = some (4, .faulted (.jumpUnderflow 4)) := by decide
theorem witness_JumpIfZeroTestsTheZeroFlag : vecZ.flags.z = true ∧ vec.flags.z = false ∧ 1 ≥ 1 := by decide
theorem witness_JumpIfNotZeroTestsTheZeroFlag : (!vec.flags.z) = true ∧ (!vecZ.flags.z) = false ∧ 1 ≥ 1 := by decide
theorem witness_JumpPoliciesDifferOnlyAtTargetZero : 1 ≥ 1 ∧
    (nextState (vec.jumpTo .wrap 0)).map (·.pc) = some 0 ∧ (nextState (vec.jumpTo .fault 0)).map (·.pc) = some 4 := by
  decide
theorem witness_PrintAppendsTheRegister : 7 < 8 ∧ 8 > 7 := by decide

/-- Each form of each frame answers a next state. -/
theorem witness_ArithmeticFrame : ∃ t, exec (Claims.arithInstr .sub 1 1 0) vec = .next t := ⟨_, rfl⟩
theorem witness_MoveAndLoadFrame : (∃ t, exec (.move 7 9) vec = .next t) ∧ ∃ t, exec (.load 7 9) vec = .next t :=
  ⟨⟨_, rfl⟩, ⟨_, rfl⟩⟩
theorem witness_StoreFrame : ∃ t, exec (.store 16 0) vec = .next t := ⟨_, rfl⟩
theorem witness_JumpAndOutputFrame : (∃ t, exec (.jump 3) vec = .next t) ∧ (∃ t, exec (.jumpIfZero 3) vec = .next t) ∧
    (∃ t, exec (.jumpIfNotZero 3) vec = .next t) ∧ (∃ t, exec (.print 3) vec = .next t) ∧
    ∃ t, exec .endRun vec = .next t := ⟨⟨_, rfl⟩, ⟨_, rfl⟩, ⟨_, rfl⟩, ⟨_, rfl⟩, ⟨_, rfl⟩⟩

theorem witness_RegistersReadAndWrittenAsTheTableSays :
    (step (State.load [⟨6, 3, 9, 0⟩]) = .next (stepped 1 (State.load [⟨6, 3, 9, 0⟩])) ∧
      (stepped 1 (State.load [⟨6, 3, 9, 0⟩])).reg 3 ≠ (State.load [⟨6, 3, 9, 0⟩]).reg 3) ∧
    ((3 : Fin 8).val ∉ Claims.readsReg (.add 3 1 0) ∧ Claims.writesReg (.add 3 1 0) = some 3 ∧
      (∃ t, exec (.add 3 1 0) vec = .next t ∧ t.status = .running) ∧
      ∃ t, exec (.add 3 1 0) (vec.setReg 3 7) = .next t) :=
  ⟨⟨rfl, by decide⟩, by decide, by decide, ⟨_, rfl, rfl⟩, ⟨_, rfl⟩⟩

theorem witness_OnlyTheSixSubOperationsWriteFlags :
    (∃ t, exec (.move 0 0) vecZ = .next t) ∧ ¬ Claims.IsArith (.move 0 0) ∧
    (step (State.load [⟨4, 7, 7, 7⟩]) = .next (stepped 1 (State.load [⟨4, 7, 7, 7⟩])) ∧
      (stepped 1 (State.load [⟨4, 7, 7, 7⟩])).flags ≠ (State.load [⟨4, 7, 7, 7⟩]).flags) ∧ 7 < 8 :=
  ⟨⟨_, rfl⟩, (fun ⟨op, _, _, _, h⟩ => by cases op <;> cases h), ⟨rfl, by decide⟩, by decide⟩

theorem witness_OnlyConditionalJumpsReadAFlag :
    (∃ t, exec (.load 1 16) vec = .next t) ∧ (∃ t, exec (.load 1 16) vecZ = .next t) ∧
    (∃ t, exec (.jumpIfZero 7) vec = .next t ∧ t.pc = 5) ∧ (∃ t, exec (.jumpIfZero 7) vecZ = .next t ∧ t.pc = 7) ∧
    vecZ.flags.z ≠ vec.flags.z ∧ 7 ≥ 1 ∧ 7 ≠ vec.pc + 1 :=
  ⟨⟨_, rfl⟩, ⟨_, rfl⟩, ⟨_, rfl, rfl⟩, ⟨_, rfl, rfl⟩, by decide, by decide, by decide⟩

/-- Two states that differ in Carry and Negative, and runs of two steps from them. -/
theorem witness_CarryAndNegativeNeverInfluenceARun :
    Claims.SameButCN (State.load [⟨11, 0, 1, 0⟩]) (State.resetWith ⟨true, false, true⟩ [⟨11, 0, 1, 0⟩]) ∧
    (State.load [⟨11, 0, 1, 0⟩]).runsTo 2 (stepped 2 (State.load [⟨11, 0, 1, 0⟩])) ∧
    (State.resetWith ⟨true, false, true⟩ [⟨11, 0, 1, 0⟩]).runsTo 2
      (stepped 2 (State.resetWith ⟨true, false, true⟩ [⟨11, 0, 1, 0⟩])) := ⟨rfl, rfl, rfl⟩

theorem witness_DataMemoryIsReadAndWrittenByTwoPrimitives : vec.mem.wf ∧ (255 : Fin 256) ≠ 16 ∧
    (step (vec.withFetchWord 64 0x0009001000000000) = .next (stepped 1 (vec.withFetchWord 64 0x0009001000000000)) ∧
      (stepped 1 (vec.withFetchWord 64 0x0009001000000000)).memRead 16 ≠
        (vec.withFetchWord 64 0x0009001000000000).memRead 16) ∧
    (∃ t, exec (.store 16 0) vec = .next t) ∧ (∃ t, exec (.store 16 0) { vec with mem := [] } = .next t) :=
  ⟨by decide, by decide, ⟨rfl, by decide⟩, ⟨_, rfl⟩, ⟨_, rfl⟩⟩

/-- `STORE [200], r1`; `MOVE r1, 0`; `LOAD r2, [200]`, with x1 = 20. -/
def roundTrip : State :=
  (State.load [⟨9, 200, 1, 0⟩, ⟨6, 1, 0, 0⟩, ⟨10, 2, 200, 0⟩]).setReg 1 20

theorem witness_StoreThenLoadRoundTrip : roundTrip.mem.wf ∧ roundTrip.nextInstr = some (.store 200 1) ∧
    step roundTrip = .next (stepped 1 roundTrip) ∧ (stepped 1 roundTrip).notFaulted ∧
    State.noStoreTo 200 1 (stepped 1 roundTrip) ∧ (stepped 1 roundTrip).runsTo 1 (stepped 2 roundTrip) ∧
    (stepped 2 roundTrip).nextInstr = some (.load 2 200) ∧
    step (stepped 2 roundTrip) = .next (stepped 3 roundTrip) ∧ (stepped 3 roundTrip).notFaulted ∧
    (stepped 3 roundTrip).reg 2 = 20 := by
  have hmove : (stepped 1 roundTrip).nextInstr = some (.move 1 0) := by decide
  refine ⟨by decide, by decide, rfl, notFaulted_of_running (by decide), ⟨fun r h => ?_, fun _ _ => trivial⟩, rfl,
    by decide, rfl, notFaulted_of_running (by decide), by decide⟩
  rw [hmove] at h
  cases h

theorem witness_UnstoredCellReadsZero : State.noStoreTo 77 1 (State.load [⟨10, 3, 77, 0⟩]) ∧
    (State.load [⟨10, 3, 77, 0⟩]).runsTo 1 (stepped 1 (State.load [⟨10, 3, 77, 0⟩])) := by
  have hload : (State.load [⟨10, 3, 77, 0⟩]).nextInstr = some (.load 3 77) := by decide
  exact ⟨⟨(fun r h => by rw [hload] at h; cases h), fun _ _ => trivial⟩, rfl⟩

theorem witness_ProgramIsNeverChanged : (State.load [⟨6, 0, 1, 0⟩]).runsTo 2 (stepped 2 (State.load [⟨6, 0, 1, 0⟩])) ∧
    ∃ t, exec (.store 16 0) vec = .next t := ⟨rfl, ⟨_, rfl⟩⟩
theorem witness_CounterAtTheNextFetch : vec.status = .running ∧
    (∃ t, exec (.jumpIfZero 9) vecZ = .next t ∧ t.status = .running) ∧
    ∃ t, exec .endRun vec = .next t ∧ t.status ≠ .running := ⟨rfl, ⟨_, rfl, rfl⟩, ⟨_, rfl, by decide⟩⟩
theorem witness_OutputOnlyGrows :
    step (vec.withFetchWord 64 0x0007000200000000) = .next (stepped 1 (vec.withFetchWord 64 0x0007000200000000)) ∧
    (vec.withFetchWord 64 0x0007000200000000).runsTo 2 (stepped 2 (vec.withFetchWord 64 0x0007000200000000)) :=
  ⟨rfl, rfl⟩
/-- For `FaultsChangeOnlyTheStatus` and `EachFaultHasItsCause`: one faulting form of each fault an instruction raises. -/
theorem witness_FaultsChangeOnlyTheStatus : vec.notFaulted ∧
    (∃ t, exec (.add 0 8 0) vec = .next t ∧ t.status = .faulted (.outOfRangeRegister 8)) ∧
    (∃ t, exec (.load 0 256) vec = .next t ∧ t.status = .faulted (.outOfRangeMemory 256)) ∧
    ∃ t, exec (.jump 0) vec = .next t ∧ t.status = .faulted (.jumpUnderflow 4) :=
  ⟨notFaulted_of_running rfl, ⟨_, rfl, rfl⟩, ⟨_, rfl, rfl⟩, ⟨_, rfl, rfl⟩⟩
theorem witness_EachFaultHasItsCause : vec.notFaulted ∧
    ∃ t, exec (.jumpIfNotZero 0) vec = .next t ∧ t.status = .faulted (.jumpUnderflow 4) :=
  ⟨notFaulted_of_running rfl, ⟨_, rfl, rfl⟩⟩

theorem witness_ResetMeetsTheInvariant : programWellFormed 16 16 [⟨13, 0, 0, 65535⟩] = true ∧
    ¬ ((Flags.mk true true false).z = true ∧ (Flags.mk true true false).n = true) := by decide

/-- A state in the middle of a run that meets the invariant, and the step from it. -/
theorem witness_StepKeepsTheInvariant : 4 ≤ 16 ∧ 16 ≤ 16 ∧
    State.Inv 16 16 { vecZ with pc := 1, prog := [⟨6, 0, 1, 0⟩, ⟨11, 0, 65535, 0⟩] } ∧
    ∃ t, step { vecZ with pc := 1, prog := [⟨6, 0, 1, 0⟩, ⟨11, 0, 65535, 0⟩] } = .next t ∧ t.pc = 65535 := by
  refine ⟨by decide, by decide, ?_, ⟨_, rfl, rfl⟩⟩
  constructor
  · decide
  · decide
  · decide
  · decide
  · intro _; decide
  · intro h; cases h
  · intro h; cases h
  · intro f h; cases h

/-- A run that is still Running, one that halts, one that is exhausted and one that faults. -/
theorem witness_RunOfAWellFormedProgramEndsInThreeWays :
    programWellFormed 16 16 [⟨8, 0, 0, 0⟩] = true ∧ programWellFormed 16 16 [⟨13, 0, 0, 0⟩] = true ∧
    programWellFormed 16 16 [] = true ∧
    (State.load [⟨8, 0, 0, 0⟩]).runsTo 0 (State.load [⟨8, 0, 0, 0⟩]) ∧
    ((State.load [⟨8, 0, 0, 0⟩]).runsTo 1 (stepped 1 (State.load [⟨8, 0, 0, 0⟩])) ∧
      (stepped 1 (State.load [⟨8, 0, 0, 0⟩])).status = .halted) ∧
    ((State.load []).runsTo 1 (stepped 1 (State.load [])) ∧ (stepped 1 (State.load [])).status = .exhausted) ∧
    ((State.load [⟨13, 0, 0, 0⟩]).runsTo 1 (stepped 1 (State.load [⟨13, 0, 0, 0⟩])) ∧
      (stepped 1 (State.load [⟨13, 0, 0, 0⟩])).status = .faulted (.jumpUnderflow 0)) :=
  ⟨by decide, by decide, by decide, rfl, ⟨rfl, by decide⟩, ⟨rfl, by decide⟩, ⟨rfl, by decide⟩⟩

theorem witness_StaticRangeCheckRulesOutFaults : programRangesOk [⟨9, 255, 7, 0⟩, ⟨13, 0, 1, 0⟩] = true ∧
    (State.load [⟨9, 255, 7, 0⟩, ⟨13, 0, 1, 0⟩]).runsTo 2 (stepped 2 (State.load [⟨9, 255, 7, 0⟩, ⟨13, 0, 1, 0⟩])) :=
  ⟨by decide, rfl⟩

theorem witness_DecodeOfEncodeIsTheInstruction : 4 ≤ 16 ∧ (Instr.store 65535 7).wellFormed 16 = true ∧ 4 ≤ 4 ∧
    (Instr.jump 15).wellFormed 4 = true := by decide
theorem witness_RecordsAndWordsAreInverse : (13 < 2 ^ 16 ∧ 65535 < 2 ^ 16 ∧ 0 < 2 ^ 16) ∧
    0xFFFFFFFFFFFFFFFF < 2 ^ (4 * 16) := by decide
theorem witness_UnreadFieldsHaveNoEffect : (Record.mk 8 9 9 9).opcode = (Record.mk 8 0 0 0).opcode ∧
    Claims.fieldsRead 8 = (false, false, false) ∧ Claims.fieldsRead 13 = (false, true, false) := by decide
theorem witness_LoaderReadsTheTextOfAProgram : 4 ≤ 4 ∧ programWellFormed 4 4 [⟨13, 0, 15, 0⟩] = true := by decide
theorem witness_LoaderAcceptsOnlyWellFormedPrograms :
    Loader.load 16 16 "110 0 1 0\n1000 0 0 0\n".toList = .ok [⟨6, 0, 1, 0⟩, ⟨8, 0, 0, 0⟩] := by decide

end Sys2Proof.Tests
end

namespace Sys2Proof.Machine

/-! The six arithmetic sub-operations as one form: what the laws of exec say of `Claims.arithInstr`. -/

@[simp] theorem faultOf_arithInstr (op : AluOp) (d l r : Nat) (s : State) :
    faultOf (Claims.arithInstr op d l r) s = arithFault d l r := by cases op <;> rfl

@[simp] theorem effectOf_arithInstr (op : AluOp) (d l r : Nat) (s : State) :
    effectOf (Claims.arithInstr op d l r) s = arithEffect op d l r s := by cases op <;> rfl

@[simp] theorem readsReg_arithInstr (op : AluOp) (d l r : Nat) :
    Claims.readsReg (Claims.arithInstr op d l r) = [l, r] := by cases op <;> rfl

@[simp] theorem writesReg_arithInstr (op : AluOp) (d l r : Nat) :
    Claims.writesReg (Claims.arithInstr op d l r) = some d := by cases op <;> rfl

/-- The case split of a proof about every instruction, the six arithmetic sub-operations in one case. -/
theorem instr_cases {motive : Instr → Prop}
    (arith : ∀ op d l r, motive (Claims.arithInstr op d l r)) (move : ∀ d v, motive (.move d v))
    (print : ∀ d, motive (.print d)) (endRun : motive .endRun) (store : ∀ a l, motive (.store a l))
    (load : ∀ d a, motive (.load d a)) (jumpIfZero : ∀ t, motive (.jumpIfZero t))
    (jumpIfNotZero : ∀ t, motive (.jumpIfNotZero t)) (jump : ∀ t, motive (.jump t)) (i : Instr) : motive i := by
  cases i with
  | add d l r => exact arith .add d l r
  | sub d l r => exact arith .sub d l r
  | and d l r => exact arith .and d l r
  | or d l r => exact arith .or d l r
  | xor d l r => exact arith .xor d l r
  | not d l r => exact arith .not d l r
  | move d v => exact move d v
  | print d => exact print d
  | endRun => exact endRun
  | store a l => exact store a l
  | load d a => exact load d a
  | jumpIfZero t => exact jumpIfZero t
  | jumpIfNotZero t => exact jumpIfNotZero t
  | jump t => exact jump t

/-! The effect of an instruction, field by field. -/

theorem effectOf_prog (i : Instr) (s : State) : (effectOf i s).prog = s.prog := by cases i <;> rfl

/-- Where its checks pass, an instruction leaves the counter at the table's value (spec/10_state.md R16). -/
theorem effectOf_pc (i : Instr) (s : State) : (effectOf i s).pc = Claims.nextPc i s := by
  cases i with
  | jumpIfNotZero t => simp [effectOf, jumpEffect, Claims.nextPc]
  | _ => rfl

/-- Only END sets a status. -/
theorem effectOf_status {i : Instr} (h : i ≠ .endRun) (s : State) : (effectOf i s).status = s.status := by
  cases i with
  | endRun => exact absurd rfl h
  | _ => rfl

/-- The events an instruction whose checks pass appends to the output (spec/10_state.md R25). -/
def eventsOf (i : Instr) (s : State) : List OutEvent :=
  match i with
  | .print d => [.out (s.reg (regIdx d))]
  | .endRun => [.haltNotice]
  | _ => []

theorem effectOf_output (i : Instr) (s : State) : (effectOf i s).output = s.output ++ eventsOf i s := by
  cases i with
  | print d => rfl
  | endRun => rfl
  | _ => exact (List.append_nil _).symm

/-- Only END writes the notice. -/
theorem haltNotice_not_mem_eventsOf {i : Instr} (h : i ≠ .endRun) (s : State) : OutEvent.haltNotice ∉ eventsOf i s := by
  cases i with
  | endRun => exact absurd rfl h
  | _ => simp [eventsOf]

/-- STORE writes at an address in range, so the memory stays canonical. -/
theorem effectOf_mem_wf (i : Instr) {s : State} (h : s.mem.wf) : (effectOf i s).mem.wf := by
  cases i with
  | store a l => exact Memory.write_wf h (memIdx a).isLt _
  | _ => exact h

theorem arithEffect_flags (op : AluOp) (d l r : Nat) (s : State) :
    (arithEffect op d l r s).flags = aluFlags op (s.reg (regIdx l)) (s.reg (regIdx r)) := rfl

theorem arithEffect_reg (op : AluOp) (d l r : Nat) (s : State) :
    (arithEffect op d l r s).reg (regIdx d) = aluResult op (s.reg (regIdx l)) (s.reg (regIdx r)) :=
  State.setReg_reg_same _ _ _

/-- Only the six arithmetic sub-operations write flags (spec/10_state.md R19). -/
theorem effectOf_flags {i : Instr} (h : ¬ Claims.IsArith i) (s : State) : (effectOf i s).flags = s.flags := by
  cases i using instr_cases with
  | arith op d l r => exact absurd ⟨op, d, l, r, rfl⟩ h
  | _ => rfl

theorem effectOf_flags_exclusive (i : Instr) {s : State} (h : ¬ (s.flags.z = true ∧ s.flags.n = true)) :
    ¬ ((effectOf i s).flags.z = true ∧ (effectOf i s).flags.n = true) := by
  cases i using instr_cases with
  | arith op d l r =>
    rw [effectOf_arithInstr, arithEffect_flags]
    exact zero_negative_exclusive _
  | _ => exact h

/-- The flags of an evaluation are those of the flag table (spec/40_alu_arithmetic_logic.md R70, R81). -/
theorem aluFlags_eq_table (op : AluOp) (a b : Byte) :
    aluFlags op a b = { c := Claims.carryOf op a b, z := decide ((aluResult op a b).toNat = 0),
                        n := decide ((aluResult op a b).toNat > 127) } := by
  have hc : aluCarry op a b = Claims.carryOf op a b := by cases op <;> rfl
  rw [aluFlags, hc, zeroFlag_eq]
  rfl

/-! The next state of an instruction, for its fault and its effect alike. -/

/-- What holds of each fault raised and of the effect holds of the next state. -/
theorem nextOf_lift {i : Instr} {s : State} {P : State → Prop} (hraise : ∀ f, faultOf i s = some f → P (s.raise f))
    (heffect : faultOf i s = none → P (effectOf i s)) : P (nextOf i s) := by
  unfold nextOf
  split
  · exact hraise _ ‹_›
  · exact heffect ‹_›

/-- The only next state an instruction answers. -/
theorem eq_nextOf {i : Instr} {s t : State} (h : exec i s = .next t) : t = nextOf i s := by
  rw [exec_eq] at h
  cases h
  rfl

theorem nextOf_prog (i : Instr) (s : State) : (nextOf i s).prog = s.prog :=
  nextOf_lift (P := fun t => t.prog = s.prog) (fun _ _ => rfl) fun _ => effectOf_prog i s

theorem nextOf_flags {i : Instr} (h : ¬ Claims.IsArith i) (s : State) : (nextOf i s).flags = s.flags :=
  nextOf_lift (P := fun t => t.flags = s.flags) (fun _ _ => rfl) fun _ => effectOf_flags h s

/-! The registers an instruction reads and writes (spec/10_state.md R12). -/

theorem faultOf_store_none {a l : Nat} {s : State} : faultOf (.store a l) s = none ↔ l < 8 ∧ a < 256 := by
  grind [faultOf]

theorem faultOf_load_none {d a : Nat} {s : State} : faultOf (.load d a) s = none ↔ a < 256 ∧ d < 8 := by
  grind [faultOf]

/-- Where no check fails, every register read is one of the eight. -/
theorem readsReg_lt {i : Instr} {s : State} (h : faultOf i s = none) {l : Nat} (hl : l ∈ Claims.readsReg i) :
    l < 8 := by
  cases i using instr_cases with
  | arith op d a b =>
    obtain ⟨-, ha, hb⟩ := arithFault_none.mp (faultOf_arithInstr op d a b s ▸ h)
    rw [readsReg_arithInstr] at hl
    simp only [List.mem_cons, List.not_mem_nil, or_false] at hl
    omega
  | print d =>
    obtain rfl := List.mem_singleton.mp hl
    simpa [faultOf] using h
  | store a k =>
    obtain rfl := List.mem_singleton.mp hl
    exact (faultOf_store_none.mp h).1
  | _ => cases hl

/-- Where no check fails, the register written is one of the eight. -/
theorem writesReg_lt {i : Instr} {s : State} (h : faultOf i s = none) {d : Nat} (hd : Claims.writesReg i = some d) :
    d < 8 := by
  cases i using instr_cases with
  | arith op k a b =>
    obtain ⟨hk, -, -⟩ := arithFault_none.mp (faultOf_arithInstr op k a b s ▸ h)
    rw [writesReg_arithInstr] at hd
    cases hd
    exact hk
  | move k v =>
    cases hd
    simpa [faultOf] using h
  | load k a =>
    cases hd
    exact (faultOf_load_none.mp h).2
  | _ => cases hd

/-- The checks do not look at what a register holds. -/
theorem faultOf_setReg (i : Instr) (s : State) (j : Fin 8) (v : Byte) : faultOf i (s.setReg j v) = faultOf i s := by
  cases i <;> rfl

/-- Only the destination is written. -/
theorem effectOf_reg {i : Instr} {j : Fin 8} (h : ∀ d, Claims.writesReg i = some d → j ≠ regIdx d) (s : State) :
    (effectOf i s).reg j = s.reg j := by
  cases i using instr_cases with
  | arith op d l r =>
    rw [effectOf_arithInstr]
    exact State.setReg_reg_ne _ (h d (writesReg_arithInstr op d l r)) _
  | move d v => exact State.setReg_reg_ne _ (h d rfl) _
  | load d a => exact State.setReg_reg_ne _ (h d rfl) _
  | _ => rfl

/-- An arithmetic sub-operation after a write to a register that is none of its operands: the same result and flags. -/
theorem arithEffect_setReg (op : AluOp) (d : Nat) {l r : Nat} {j : Fin 8} (hl : regIdx l ≠ j) (hr : regIdx r ≠ j)
    (v : Byte) (s : State) :
    arithEffect op d l r (s.setReg j v) =
      (((s.setFlags (aluFlags op (s.reg (regIdx l)) (s.reg (regIdx r)))).setReg j v).setReg (regIdx d)
        (aluResult op (s.reg (regIdx l)) (s.reg (regIdx r)))).advance := by
  rw [arithEffect, State.setReg_reg_ne s hl, State.setReg_reg_ne s hr]
  rfl

/-- A register neither read nor written keeps its value and has no influence. -/
theorem effectOf_setReg_unwritten {i : Instr} {j : Fin 8} (hread : ∀ l ∈ Claims.readsReg i, regIdx l ≠ j)
    (hwrite : ∀ d, Claims.writesReg i = some d → j ≠ regIdx d) (v : Byte) (s : State) :
    effectOf i (s.setReg j v) = (effectOf i s).setReg j v := by
  cases i using instr_cases with
  | arith op d l r =>
    rw [readsReg_arithInstr] at hread
    rw [effectOf_arithInstr, effectOf_arithInstr, arithEffect_setReg op d (hread l (by simp)) (hread r (by simp)),
      State.setReg_comm _ (hwrite d (writesReg_arithInstr op d l r))]
    rfl
  | move d u => exact congrArg State.advance (State.setReg_comm s (hwrite d rfl) v _)
  | load d a => exact congrArg State.advance (State.setReg_comm s (hwrite d rfl) v _)
  | print d =>
    have hd := State.setReg_reg_ne s (hread d List.mem_cons_self) v
    simp only [effectOf, hd]
    rfl
  | store a l =>
    have hl := State.setReg_reg_ne s (hread l List.mem_cons_self) v
    simp only [effectOf, hl]
    rfl
  | _ => rfl

/-- A destination that is not read loses its old value. -/
theorem effectOf_setReg_written {i : Instr} {d : Nat} (hread : ∀ l ∈ Claims.readsReg i, regIdx l ≠ regIdx d)
    (hwrite : Claims.writesReg i = some d) (v : Byte) (s : State) :
    effectOf i (s.setReg (regIdx d) v) = effectOf i s := by
  cases i using instr_cases with
  | arith op k l r =>
    rw [readsReg_arithInstr] at hread
    obtain rfl := Option.some.inj (writesReg_arithInstr op k l r ▸ hwrite)
    rw [effectOf_arithInstr, effectOf_arithInstr, arithEffect_setReg op k (hread l (by simp)) (hread r (by simp)),
      State.setReg_setReg]
    rfl
  | move k u =>
    cases hwrite
    exact congrArg State.advance (State.setReg_setReg s _ v _)
  | load k a =>
    cases hwrite
    exact congrArg State.advance (State.setReg_setReg s _ v _)
  | _ => cases hwrite

/-- A register an instruction does not read is not the one any of its indices in range names. -/
theorem regIdx_ne_of_not_read {i : Instr} {s : State} {j : Fin 8} (hf : faultOf i s = none)
    (hj : j.val ∉ Claims.readsReg i) : ∀ l ∈ Claims.readsReg i, regIdx l ≠ j := by
  intro l hl he
  rw [← he, regIdx_eq (readsReg_lt hf hl)] at hj
  exact hj hl

/-- Nor is one it does not write. -/
theorem ne_regIdx_of_not_written {i : Instr} {s : State} {j : Fin 8} (hf : faultOf i s = none)
    (hj : Claims.writesReg i ≠ some j.val) : ∀ d, Claims.writesReg i = some d → j ≠ regIdx d := by
  intro d hd he
  rw [he, regIdx_eq (writesReg_lt hf hd)] at hj
  exact hj hd

theorem nextOf_reg {i : Instr} {j : Fin 8} (h : Claims.writesReg i ≠ some j.val) (s : State) :
    (nextOf i s).reg j = s.reg j :=
  nextOf_lift (P := fun t => t.reg j = s.reg j) (fun _ _ => rfl) fun hf =>
    effectOf_reg (ne_regIdx_of_not_written hf h) s

/-- The effect after a write to a register that is not read: as before where the register is the destination, and
else the same but for that register. -/
theorem effectOf_setReg {i : Instr} {s : State} {j : Fin 8} (hf : faultOf i s = none)
    (hj : j.val ∉ Claims.readsReg i) (v : Byte) :
    effectOf i (s.setReg j v) =
      if Claims.writesReg i = some j.val then effectOf i s else (effectOf i s).setReg j v := by
  have hread := regIdx_ne_of_not_read hf hj
  split
  · rename_i hw
    have hd : regIdx j.val = j := regIdx_eq j.isLt
    rw [← hd] at hread
    exact hd ▸ effectOf_setReg_written hread hw v s
  · rename_i hw
    exact effectOf_setReg_unwritten hread (ne_regIdx_of_not_written hf hw) v s

/-! The flags an instruction reads (spec/10_state.md R20). -/

/-- The checks of an instruction look at no flag but Z, and at Z only in a conditional jump. -/
theorem faultOf_setFlags {i : Instr} {s : State} {f : Flags}
    (h : f.z = s.flags.z ∨ ∀ x, i ≠ .jumpIfZero x ∧ i ≠ .jumpIfNotZero x) :
    faultOf i (s.setFlags f) = faultOf i s := by
  cases i with
  | jumpIfZero t =>
    have hz : f.z = s.flags.z := h.resolve_right fun hj => (hj t).1 rfl
    simp [faultOf, hz]
  | jumpIfNotZero t =>
    have hz : f.z = s.flags.z := h.resolve_right fun hj => (hj t).2 rfl
    simp [faultOf, hz]
  | _ => rfl

/-- An arithmetic sub-operation overwrites all three flags and has the same effect whatever they were. -/
theorem effectOf_setFlags_of_isArith {i : Instr} (h : Claims.IsArith i) (s : State) (f : Flags) :
    effectOf i (s.setFlags f) = effectOf i s := by
  obtain ⟨op, d, l, r, rfl⟩ := h
  rw [effectOf_arithInstr, effectOf_arithInstr]
  rfl

/-- Every other instruction keeps the flags it is given and, for the same Z in a conditional jump, does the same. -/
theorem effectOf_setFlags {i : Instr} {s : State} {f : Flags} (ha : ¬ Claims.IsArith i)
    (h : f.z = s.flags.z ∨ ∀ x, i ≠ .jumpIfZero x ∧ i ≠ .jumpIfNotZero x) :
    effectOf i (s.setFlags f) = (effectOf i s).setFlags f := by
  cases i using instr_cases with
  | arith op d l r => exact absurd ⟨op, d, l, r, rfl⟩ ha
  | jumpIfZero t =>
    have hz : f.z = s.flags.z := h.resolve_right fun hj => (hj t).1 rfl
    simp only [effectOf, State.setFlags_flags, hz]
    rfl
  | jumpIfNotZero t =>
    have hz : f.z = s.flags.z := h.resolve_right fun hj => (hj t).2 rfl
    simp only [effectOf, State.setFlags_flags, hz]
    rfl
  | _ => rfl

theorem nextOf_setFlags_of_not_isArith {i : Instr} {s : State} {f : Flags} (ha : ¬ Claims.IsArith i)
    (h : f.z = s.flags.z ∨ ∀ x, i ≠ .jumpIfZero x ∧ i ≠ .jumpIfNotZero x) :
    nextOf i (s.setFlags f) = (nextOf i s).setFlags f := by
  unfold nextOf
  rw [faultOf_setFlags h]
  split
  · rfl
  · exact effectOf_setFlags ha h

/-- An instruction run with other flags (the same Z, for a conditional jump) answers a state alike but for the flags,
which are the same or the old ones of the two states. -/
theorem nextOf_setFlags {i : Instr} {s : State} {f : Flags}
    (h : f.z = s.flags.z ∨ ∀ x, i ≠ .jumpIfZero x ∧ i ≠ .jumpIfNotZero x) :
    nextOf i (s.setFlags f) = nextOf i s ∨
      (nextOf i s).flags = s.flags ∧ nextOf i (s.setFlags f) = (nextOf i s).setFlags f := by
  by_cases ha : Claims.IsArith i
  · unfold nextOf
    rw [faultOf_setFlags h]
    split
    · exact .inr ⟨rfl, rfl⟩
    · exact .inl (effectOf_setFlags_of_isArith ha s f)
  · exact .inr ⟨nextOf_flags ha s, nextOf_setFlags_of_not_isArith ha h⟩

/-- The six write a register. -/
theorem not_isArith_of_writesReg_none {i : Instr} (h : Claims.writesReg i = none) : ¬ Claims.IsArith i := by
  rintro ⟨op, d, l, r, rfl⟩
  rw [writesReg_arithInstr] at h
  cases h

/-- A conditional jump to a target of 1 or more raises no fault. -/
theorem condJump_no_fault {i : Instr} {x : Nat} (hi : i = .jumpIfZero x ∨ i = .jumpIfNotZero x) (hx : 1 ≤ x)
    (s : State) : faultOf i s = none := by
  rcases hi with rfl | rfl
  · exact jumpFault_none.mpr (by omega)
  · exact jumpFault_none.mpr (by omega)

/-- Where the target is not the next index, the counter a conditional jump leaves says what Z was. -/
theorem nextPc_condJump_ne {i : Instr} {x : Nat} (hi : i = .jumpIfZero x ∨ i = .jumpIfNotZero x) {s : State} {f : Flags}
    (hz : f.z ≠ s.flags.z) (hx : x ≠ s.pc + 1) : Claims.nextPc i (s.setFlags f) ≠ Claims.nextPc i s := by
  have hnot : f.z = !s.flags.z := Bool.eq_not.mpr hz
  rcases hi with rfl | rfl
  · simp only [Claims.nextPc, State.setFlags_flags, State.setFlags_pc, hnot]
    cases s.flags.z <;> simp [hx, hx.symm]
  · simp only [Claims.nextPc, State.setFlags_flags, State.setFlags_pc, hnot]
    cases s.flags.z <;> simp [hx, hx.symm]

/-! Runs. -/

theorem step_prog {s t : State} (h : step s = .next t) : t.prog = s.prog :=
  step_lift h (P := fun t => t.prog = s.prog) rfl rfl (fun _ => rfl) fun i _ => nextOf_prog i s

/-- Two runs of one length from one state end in one state. -/
theorem runsTo_unique {s t u : State} {k : Nat} (ht : s.runsTo k t) (hu : s.runsTo k u) : t = u := by
  unfold State.runsTo at ht hu
  rw [ht] at hu
  cases hu
  rfl

/-- A relation that steps keep, runs keep: the second machine follows the first at every length. -/
theorem runsTo_simulates {R : State → State → Prop}
    (hstep : ∀ s s' t, R s s' → step s = .next t → ∃ t', step s' = .next t' ∧ R t t') {k : Nat} {s s' t : State}
    (hs : R s s') (h : s.runsTo k t) : ∃ t', s'.runsTo k t' ∧ R t t' := by
  induction k generalizing s s' with
  | zero => exact ⟨s', runsTo_zero.mpr rfl, runsTo_zero.mp h ▸ hs⟩
  | succ k ih =>
    obtain ⟨u, hu, hr⟩ := runsTo_succ.mp h
    obtain ⟨u', hu', hR⟩ := hstep s s' u hs hu
    obtain ⟨t', ht', hR'⟩ := ih hR hr
    exact ⟨t', runsTo_succ.mpr ⟨u', hu', ht'⟩, hR'⟩

/-! Carry and Negative (spec/10_state.md R20). -/

/-- Alike but for Carry and Negative: other flags with the same Z. -/
theorem sameButCN_iff {s t : State} : Claims.SameButCN s t ↔ ∃ f : Flags, f.z = s.flags.z ∧ t = s.setFlags f := by
  constructor
  · intro h
    exact ⟨{ c := t.flags.c, z := s.flags.z, n := t.flags.n }, rfl, h⟩
  · rintro ⟨f, hz, rfl⟩
    unfold Claims.SameButCN
    rw [← hz]
    rfl

theorem sameButCN_setFlags {s : State} {f : Flags} (hz : f.z = s.flags.z) : Claims.SameButCN s (s.setFlags f) :=
  sameButCN_iff.mpr ⟨f, hz, rfl⟩

theorem nextOf_sameButCN (i : Instr) {s : State} {f : Flags} (hz : f.z = s.flags.z) :
    Claims.SameButCN (nextOf i s) (nextOf i (s.setFlags f)) := by
  rcases nextOf_setFlags (i := i) (.inl hz) with h | ⟨hkept, h⟩
  · rw [h]
    exact sameButCN_setFlags rfl
  · rw [h]
    exact sameButCN_setFlags (hz.trans (congrArg Flags.z hkept.symm))

/-- The step lemma: of two states alike but for Carry and Negative, the second steps as the first does. -/
theorem step_sameButCN (s s' t : State) (hs : Claims.SameButCN s s') (h : step s = .next t) :
    ∃ t', step s' = .next t' ∧ Claims.SameButCN t t' := by
  obtain ⟨f, hz, rfl⟩ := sameButCN_iff.mp hs
  rcases step_cases h with ⟨hst, rfl⟩ | ⟨hst, hp, rfl⟩ | ⟨r, v, hst, hp, hd, rfl⟩ | ⟨r, i, hst, hp, hd, rfl⟩
  · exact ⟨_, step_final hst, hs⟩
  · exact ⟨_, step_exhausted hst hp, sameButCN_setFlags hz⟩
  · exact ⟨_, step_illegal hst hp hd, sameButCN_setFlags hz⟩
  · exact ⟨_, (step_runs (s := s.setFlags f) hst hp hd).trans (exec_eq i _), nextOf_sameButCN i hz⟩

/-- Settles O35: the step lemma, carried along runs; a run of a given length has one end. -/
theorem carryAndNegativeNeverInfluenceARun : Obligations.CarryAndNegativeNeverInfluenceARun := by
  intro k s s' t t' hs ht ht'
  obtain ⟨u, hu, htu⟩ := runsTo_simulates step_sameButCN hs ht
  exact runsTo_unique ht' hu ▸ htu

/-! The invariant. -/

/-- A record that is no instruction has an opcode above 13 (spec/30_encoding.md R54). -/
theorem opcode_of_decode_error {r : Record} {e : DecodeError} (h : r.decode = .error e) : 13 < r.opcode := by
  unfold Record.decode Operation.ofOpcode at h
  split at h
  · cases h
  · rename_i e' ho
    split at ho
    · cases ho
    · rename_i hn
      exact List.getElem?_eq_none_iff.mp hn

/-- Decoding gives the operation of the table its fields. -/
theorem decode_eq_toInstr {r : Record} {i : Instr} (h : r.decode = .ok i) : ∃ o : Operation, i = o.toInstr r := by
  unfold Record.decode at h
  split at h
  · cases h
    exact ⟨_, rfl⟩
  · cases h

/-- Fields that fit in their bits make a well-formed instruction. -/
theorem decode_wellFormed {fw : Nat} {r : Record} {i : Instr} (hr : r.wellFormed fw = true) (h : r.decode = .ok i) :
    i.wellFormed fw = true := by
  obtain ⟨o, rfl⟩ := decode_eq_toInstr h
  simp only [Record.wellFormed, Bool.and_eq_true] at hr
  obtain ⟨⟨⟨-, hd⟩, hl⟩, hr⟩ := hr
  cases o with
  | arith op => cases op <;> simp [Operation.toInstr, Instr.wellFormed, hd, hl, hr]
  | _ => simp [Operation.toInstr, Instr.wellFormed, hd, hl]

/-- Every record of a well-formed program is well-formed. -/
theorem record_wellFormed {fw pcw k : Nat} {p : List Record} {r : Record} (h : programWellFormed fw pcw p = true)
    (hr : p[k]? = some r) : r.wellFormed fw = true := by
  simp only [programWellFormed, Bool.and_eq_true, List.all_eq_true] at h
  exact h.2 r (List.mem_of_getElem? hr)

theorem length_of_wellFormed {fw pcw : Nat} {p : List Record} (h : programWellFormed fw pcw p = true) :
    p.length ≤ 2 ^ pcw - 1 := by
  simp only [programWellFormed, Bool.and_eq_true, decide_eq_true_eq] at h
  exact h.1

/-- A well-formed program raises no IllegalOpcode. -/
theorem decode_ne_error {fw pcw k : Nat} {p : List Record} {r : Record} (h : programWellFormed fw pcw p = true)
    (hr : p[k]? = some r) (e : DecodeError) : r.decode ≠ .error e := by
  intro he
  have hwf := record_wellFormed h hr
  have hop := opcode_of_decode_error he
  simp only [Record.wellFormed, Bool.and_eq_true, decide_eq_true_eq] at hwf
  omega

theorem fieldFits_iff {fw v : Nat} : fieldFits fw v = true ↔ v < 2 ^ fw := decide_eq_true_iff

/-- The next counter is at most the next index, or it is the target of a jump, which fits in a field. -/
theorem nextPc_le {fw : Nat} {i : Instr} (hi : i.wellFormed fw = true) (s : State) :
    Claims.nextPc i s ≤ s.pc + 1 ∨ Claims.nextPc i s < 2 ^ fw := by
  cases i with
  | jump t => exact .inr (fieldFits_iff.mp hi)
  | jumpIfZero t =>
    simp only [Claims.nextPc]
    split
    · exact .inr (fieldFits_iff.mp hi)
    · exact .inl le_rfl
  | jumpIfNotZero t =>
    simp only [Claims.nextPc]
    split
    · exact .inr (fieldFits_iff.mp hi)
    · exact .inl le_rfl
  | endRun => exact .inl (Nat.le_succ _)
  | _ => exact .inl le_rfl

/-- A fault an instruction raises records an index or address out of range, or the index of the jump
(spec/60_exceptions.md R107 to R109). -/
theorem faultOf_justified {i : Instr} {s : State} {f : Fault} (h : faultOf i s = some f) : f.justified s := by
  cases i using instr_cases with
  | arith op d l r =>
    obtain ⟨k, rfl, hk, -⟩ := arithFault_some (faultOf_arithInstr op d l r s ▸ h)
    exact hk
  | jump t =>
    obtain ⟨rfl, -⟩ := jumpFault_some h
    rfl
  | jumpIfZero t =>
    obtain ⟨rfl, -⟩ := jumpFault_some h
    rfl
  | jumpIfNotZero t =>
    obtain ⟨rfl, -⟩ := jumpFault_some h
    rfl
  | endRun => cases h
  | move d v => grind [faultOf, Fault.justified]
  | print d => grind [faultOf, Fault.justified]
  | store a l => grind [faultOf, Fault.justified]
  | load d a => grind [faultOf, Fault.justified]

section Invariant

variable {fw pcw : Nat} {s : State}

/-- What the invariant asks of a Running state. -/
theorem inv_of_running (hs : s.status = .running) (hprog : programWellFormed fw pcw s.prog = true) (hmem : s.mem.wf)
    (hpc : s.pc ≤ 2 ^ pcw - 1) (hflags : ¬ (s.flags.z = true ∧ s.flags.n = true))
    (hnotice : OutEvent.haltNotice ∉ s.output) : s.Inv fw pcw where
  prog_wf := hprog
  mem_wf := hmem
  pc_fits := hpc
  flags_exclusive := hflags
  notice_only_when_halted _ := hnotice
  halted_at_end h := by rw [hs] at h; cases h
  exhausted_past_end h := by rw [hs] at h; cases h
  faulted_why f h := by rw [hs] at h; cases h

variable (h : s.Inv fw pcw) (hs : s.status = .running)
include h hs

theorem inv_no_notice : OutEvent.haltNotice ∉ s.output := h.notice_only_when_halted (by rw [hs]; decide)

theorem inv_exhaust (hp : s.prog[s.pc]? = none) : s.exhaust.Inv fw pcw where
  prog_wf := h.prog_wf
  mem_wf := h.mem_wf
  pc_fits := h.pc_fits
  flags_exclusive := h.flags_exclusive
  notice_only_when_halted _ := inv_no_notice (s := s) h hs
  halted_at_end h := by cases h
  exhausted_past_end _ := List.getElem?_eq_none_iff.mp hp
  faulted_why f h := by cases h

theorem inv_raise {f : Fault} (hp : s.pc < s.prog.length) (hf : f.justified s) : (s.raise f).Inv fw pcw where
  prog_wf := h.prog_wf
  mem_wf := h.mem_wf
  pc_fits := h.pc_fits
  flags_exclusive := h.flags_exclusive
  notice_only_when_halted _ := inv_no_notice (s := s) h hs
  halted_at_end h := by cases h
  exhausted_past_end h := by cases h
  faulted_why f h := by cases h; exact ⟨hp, hf⟩

/-- END: the notice is the first and last one, and the counter stays at the END. -/
theorem inv_endRun {r : Record} (hp : s.prog[s.pc]? = some r) (hd : r.decode = .ok .endRun) :
    (effectOf .endRun s).Inv fw pcw where
  prog_wf := h.prog_wf
  mem_wf := h.mem_wf
  pc_fits := h.pc_fits
  flags_exclusive := h.flags_exclusive
  notice_only_when_halted hne := absurd rfl hne
  halted_at_end _ := ⟨⟨s.output, rfl, inv_no_notice h hs⟩, r, hp, hd⟩
  exhausted_past_end h := by cases h
  faulted_why f h := by cases h

/-- Every other effect leaves the machine Running, with the counter within its bits. -/
theorem inv_effectOf (hw : fw ≤ pcw) {r : Record} {i : Instr} (hp : s.prog[s.pc]? = some r) (hd : r.decode = .ok i)
    (hi : i ≠ .endRun) : (effectOf i s).Inv fw pcw := by
  have hprog : programWellFormed fw pcw (effectOf i s).prog = true := (effectOf_prog i s).symm ▸ h.prog_wf
  have hpc : (effectOf i s).pc ≤ 2 ^ pcw - 1 := by
    have hlt : s.pc < s.prog.length := (List.getElem?_eq_some_iff.mp hp).1
    have hlen := length_of_wellFormed h.prog_wf
    have hpow : 2 ^ fw ≤ 2 ^ pcw := Nat.pow_le_pow_right (by decide) hw
    have hnext := nextPc_le (decode_wellFormed (record_wellFormed h.prog_wf hp) hd) s
    rw [effectOf_pc]
    omega
  have hnotice : OutEvent.haltNotice ∉ (effectOf i s).output := by
    rw [effectOf_output, List.mem_append]
    exact not_or.mpr ⟨inv_no_notice h hs, haltNotice_not_mem_eventsOf hi s⟩
  exact inv_of_running ((effectOf_status hi s).trans hs) hprog (effectOf_mem_wf i h.mem_wf) hpc
    (effectOf_flags_exclusive i h.flags_exclusive) hnotice

theorem inv_nextOf (hw : fw ≤ pcw) {r : Record} {i : Instr} (hp : s.prog[s.pc]? = some r) (hd : r.decode = .ok i) :
    (nextOf i s).Inv fw pcw := by
  refine nextOf_lift (fun f hf => ?_) fun _ => ?_
  · exact inv_raise h hs (List.getElem?_eq_some_iff.mp hp).1 (faultOf_justified hf)
  · by_cases hi : i = .endRun
    · subst hi
      exact inv_endRun h hs hp hd
    · exact inv_effectOf h hs hw hp hd hi

end Invariant

/-- Settles O45: each thing a step can do keeps the invariant; an illegal opcode cannot stand in the program. -/
theorem stepKeepsTheInvariant : Obligations.StepKeepsTheInvariant := by
  intro fw pcw _ hw s t h hst
  rcases step_cases hst with ⟨_, rfl⟩ | ⟨hs, hp, rfl⟩ | ⟨r, v, hs, hp, hd, rfl⟩ | ⟨r, i, hs, hp, hd, rfl⟩
  · exact h
  · exact inv_exhaust h hs hp
  · exact absurd hd (decode_ne_error h.prog_wf hp _)
  · exact inv_nextOf h hs hw hp hd

/-- Settles O6: every step from a final status answers the same state. -/
theorem finalStatusIsLeftOnlyByReset : Obligations.FinalStatusIsLeftOnlyByReset := by
  intro s hs
  have hstay : ∀ k, s.runsTo k s := by
    intro k
    induction k with
    | zero => exact runsTo_zero.mpr rfl
    | succ k ih => exact runsTo_succ.mpr ⟨s, step_final hs, ih⟩
  exact ⟨fun k t ht => runsTo_unique ht (hstay k), hstay, rfl⟩

/-- Settles O32: the step part from the frame of the registers; the other from running the instruction after a write
to a register it does not read, for its fault and for its effect. -/
theorem registersReadAndWrittenAsTheTableSays : Obligations.RegistersReadAndWrittenAsTheTableSays := by
  constructor
  · intro s t j h
    refine step_lift h (P := fun t => t.reg j ≠ s.reg j → ∃ i, s.nextInstr = some i ∧ Claims.writesReg i = some j.val)
      (absurd rfl) (absurd rfl) (fun _ => absurd rfl) fun i hi hne => ⟨i, hi, ?_⟩
    by_contra hw
    exact hne (nextOf_reg hw s)
  · intro i s t t' j v hj ht ht'
    rcases exec_next ht with ⟨f, hf, rfl⟩ | ⟨hf, rfl⟩
    · rw [exec_fault ((faultOf_setReg i s j v).trans hf)] at ht'
      cases ht'
      refine ⟨?_, fun _ hnf => absurd rfl (hnf f)⟩
      rw [State.raise_reg, State.setReg_reg_same]
      rfl
    · rw [exec_ok ((faultOf_setReg i s j v).trans hf), effectOf_setReg hf hj] at ht'
      cases ht'
      split
      · exact ⟨(State.setReg_self _ j).symm, fun _ _ => rfl⟩
      · rename_i hw
        exact ⟨by rw [State.setReg_reg_same], fun h => absurd h hw⟩

/-- Settles O33: the frame of the flags, by instruction and by step, and the effect of the six under any flags. -/
theorem onlyTheSixSubOperationsWriteFlags : Obligations.OnlyTheSixSubOperationsWriteFlags := by
  refine ⟨fun i s t ha h => eq_nextOf h ▸ nextOf_flags ha s, fun s t h => ?_, fun op d l r hd hl hr s f => ?_⟩
  · refine step_lift h (P := fun t => t.flags ≠ s.flags → ∃ i, s.nextInstr = some i ∧ Claims.IsArith i)
      (absurd rfl) (absurd rfl) (fun _ => absurd rfl) fun i hi hne => ⟨i, hi, ?_⟩
    by_contra ha
    exact hne (nextOf_flags ha s)
  · have hexec : ∀ u : State, exec (Claims.arithInstr op d l r) u = .next (arithEffect op d l r u) := fun u => by
      rw [exec_ok ((faultOf_arithInstr op d l r u).trans (arithFault_none.mpr ⟨hd, hl, hr⟩)), effectOf_arithInstr]
    refine ⟨arithEffect op d l r s, hexec s, hexec (s.setFlags f), ?_⟩
    rw [arithEffect_flags, aluFlags_eq_table, ← regIdx_eq hd, ← regIdx_eq hl, ← regIdx_eq hr, arithEffect_reg]

/-- Settles O34: other flags, and the same Z for a conditional jump, change nothing but flags; with another Z the
counter differs. -/
theorem onlyConditionalJumpsReadAFlag : Obligations.OnlyConditionalJumpsReadAFlag := by
  intro i s t t' f ht ht'
  obtain rfl := eq_nextOf ht
  obtain rfl : t' = nextOf i (s.setFlags f) := eq_nextOf ht'
  refine ⟨fun hi => ?_, fun x hi => ⟨fun hz => ?_, fun hz hx hne => ?_⟩⟩
  · rcases nextOf_setFlags (f := f) (s := s) (.inr hi) with h | ⟨-, h⟩
    · rw [h]
    · rw [h]
      rfl
  · have ha : ¬ Claims.IsArith i := by
      rcases hi with rfl | rfl
      · exact not_isArith_of_writesReg_none rfl
      · exact not_isArith_of_writesReg_none rfl
    exact nextOf_setFlags_of_not_isArith ha (.inl hz)
  · rw [nextOf, nextOf, condJump_no_fault hi hx, condJump_no_fault hi hx]
    simp only [effectOf_pc]
    exact nextPc_condJump_ne hi hz hne

/-- Settles O39: the frame of the program, by step along runs and by instruction; fetch reads the program alone. -/
theorem programIsNeverChanged : Obligations.ProgramIsNeverChanged :=
  ⟨fun _ s _ h => runsTo_keeps (P := fun t => t.prog = s.prog) (fun _ _ hu h => (step_prog h).trans hu) rfl h,
    fun i s _ h => eq_nextOf h ▸ nextOf_prog i s, fun _ _ => rfl⟩

/-- Settles O40: a fault keeps the counter, an effect leaves it at the table's value, and END alone halts. -/
theorem counterAtTheNextFetch : Obligations.CounterAtTheNextFetch := by
  intro i s t hs h
  rcases exec_next h with ⟨f, -, rfl⟩ | ⟨-, rfl⟩
  · exact ⟨fun hr => (nomatch hr), fun _ => rfl⟩
  · refine ⟨fun _ => effectOf_pc i s, fun hne => ?_⟩
    obtain rfl : i = .endRun := by
      by_contra hi
      exact hne ((effectOf_status hi s).trans hs)
    rfl

/-- A step appends nothing to the output, or the events of the instruction it runs. -/
theorem step_output {s t : State} (h : step s = .next t) :
    t.output = s.output ∨ ∃ i, s.nextInstr = some i ∧ t.output = s.output ++ eventsOf i s := by
  refine step_lift h
    (P := fun t => t.output = s.output ∨ ∃ i, s.nextInstr = some i ∧ t.output = s.output ++ eventsOf i s)
    (.inl rfl) (.inl rfl) (fun _ => .inl rfl) fun i hi => ?_
  rcases exec_next (exec_eq i s) with ⟨f, -, ht⟩ | ⟨-, ht⟩
  · exact .inl (ht ▸ rfl)
  · exact .inr ⟨i, hi, ht ▸ effectOf_output i s⟩

/-- Settles O41: by the events of the instruction the step runs; the growth is carried along runs. -/
theorem outputOnlyGrows : Obligations.OutputOnlyGrows := by
  constructor
  · intro s t h
    rcases step_output h with ho | ⟨i, hi, ho⟩
    · exact .inl ho
    · cases i with
      | print d => exact .inr (.inl ⟨d, hi, _, ho⟩)
      | endRun => exact .inr (.inr ⟨hi, ho⟩)
      | _ => exact .inl (ho.trans (List.append_nil _))
  · have hgrows : ∀ s t : State, step s = .next t → s.output <+: t.output := by
      intro s t h
      rcases step_output h with ho | ⟨i, -, ho⟩
      · exact ⟨[], (List.append_nil _).trans ho.symm⟩
      · exact ⟨_, ho.symm⟩
    intro k s t h
    exact runsTo_keeps (P := fun t => s.output <+: t.output) (fun u v hu hstep => hu.trans (hgrows u v hstep))
      ⟨[], List.append_nil _⟩ h

/-- Settles O1: row by row of the table of reset values. -/
theorem resetStateIsTheTableOfResetValues : Obligations.ResetStateIsTheTableOfResetValues :=
  ⟨by decide, fun _ => rfl, reset_mem_wf, rfl, rfl, rfl, rfl, rfl⟩

/-- Settles O8: the cells shown are the reads at the addresses 0 to 255. -/
theorem inspectionShowsTheState : Obligations.InspectionShowsTheState := by
  intro s
  refine ⟨fun _ => rfl, fun a => ?_, ?_, rfl, rfl⟩
  · simp [State.inspect, State.memRead]
  · simp [State.inspect]

/-- The state after reset is Running with an empty memory and output and the counter at 0. -/
theorem resetWith_inv {fw pcw : Nat} {f : Flags} {p : List Record} (hp : programWellFormed fw pcw p = true)
    (hf : ¬ (f.z = true ∧ f.n = true)) : (State.resetWith f p).Inv fw pcw :=
  inv_of_running rfl hp reset_mem_wf (Nat.zero_le _) hf List.not_mem_nil

/-- Settles O44: for any program and flags, and so for the empty program and FLAG_RESET. -/
theorem resetMeetsTheInvariant : Obligations.ResetMeetsTheInvariant :=
  ⟨fun _ _ _ _ hp hf => resetWith_inv hp hf, resetWith_inv (by decide) (by decide)⟩

end Sys2Proof.Machine

namespace Sys2Proof.Machine

/-! The cells an instruction, a step and a run change, and what the memory has influence on (spec/20_memory.md R30). -/

/-- Only a STORE to its address changes a cell, in any memory. -/
theorem nextOf_memRead {i : Instr} {a : Fin 256} (h : ∀ l, i ≠ .store a.val l) (s : State) :
    (nextOf i s).memRead a = s.memRead a := by
  refine nextOf_lift (P := fun t => t.memRead a = s.memRead a) (fun _ _ => rfl) fun hf => ?_
  cases i with
  | store b l =>
    have hb : b < 256 := (faultOf_store_none.mp hf).2
    have hne : a.val ≠ (memIdx b).val := by
      rw [memIdx_eq hb]
      rintro rfl
      exact h l rfl
    exact Memory.read_write_ne s.mem hne _
  | _ => rfl

theorem step_memRead {s t : State} {a : Fin 256} (hns : ∀ l, s.nextInstr ≠ some (.store a.val l))
    (h : step s = .next t) : t.memRead a = s.memRead a :=
  step_lift h (P := fun t => t.memRead a = s.memRead a) rfl rfl (fun _ => rfl) fun _ hi =>
    nextOf_memRead (fun l he => hns l (he ▸ hi)) s

/-- A run without a STORE to a cell leaves it as it was. -/
theorem runsTo_memRead {a : Fin 256} {k : Nat} {s t : State} (hns : State.noStoreTo a.val k s) (h : s.runsTo k t) :
    t.memRead a = s.memRead a := by
  induction k generalizing s with
  | zero => rw [runsTo_zero.mp h]
  | succ k ih =>
    obtain ⟨u, hu, hr⟩ := runsTo_succ.mp h
    obtain ⟨hnow, hlater⟩ := hns
    exact (ih (hlater u hu) hr).trans (step_memRead hnow hu)

/-- The checks do not look at the memory. -/
theorem faultOf_withMem (i : Instr) (s : State) (m : Memory) : faultOf i { s with mem := m } = faultOf i s := by
  cases i <;> rfl

/-- An instruction other than LOAD does the same, but for the memory, whatever the memory holds. -/
theorem nextOf_withMem {i : Instr} (h : ∀ d a, i ≠ .load d a) (s : State) (m : Memory) :
    nextOf i { s with mem := m } = { nextOf i s with mem := (nextOf i { s with mem := m }).mem } := by
  unfold nextOf
  rw [faultOf_withMem]
  split
  · rfl
  · cases i with
    | load d a => exact absurd rfl (h d a)
    | _ => rfl

/-- Settles O36: read after write on a canonical memory, the empty memory of reset, and what STORE alone changes and
LOAD alone reads. -/
theorem dataMemoryIsReadAndWrittenByTwoPrimitives : Obligations.DataMemoryIsReadAndWrittenByTwoPrimitives := by
  refine ⟨fun s a b v hm => ⟨?_, fun hb => ?_⟩, fun _ => rfl, fun s t a h hne => ?_, fun i s t t' m hi ht ht' => ?_⟩
  · rw [State.memWrite_memRead hm, if_pos rfl]
  · rw [State.memWrite_memRead hm, if_neg hb]
  · by_contra hno
    exact hne (step_memRead (fun l hl => hno ⟨l, hl⟩) h)
  · obtain rfl := eq_nextOf ht
    obtain rfl := eq_nextOf ht'
    exact nextOf_withMem hi s m

/-- Settles O38: the cell reads as in the empty memory of the loaded state. -/
theorem unstoredCellReadsZero : Obligations.UnstoredCellReadsZero :=
  fun _ _ _ _ hns h => runsTo_memRead hns h

end Sys2Proof.Machine

namespace Sys2Proof.Machine

/-! The fields of a binary word, as the digits of a numeral in base `2 ^ fw` (spec/30_encoding.md R49, R50). -/

@[simp] theorem wordField_zero (fw w : Nat) : wordField fw w 0 = w % 2 ^ fw := by simp [wordField]

/-- Each field but the last is a field of the word without its last one. -/
theorem wordField_succ (fw w k : Nat) : wordField fw w (k + 1) = wordField fw (w / 2 ^ fw) k := by
  rw [wordField, wordField, Nat.div_div_eq_div_mul, ← Nat.pow_add, Nat.add_mul, Nat.one_mul, Nat.add_comm fw]

@[simp] theorem wordField_succ_append {fw v : Nat} (hv : v < 2 ^ fw) (w k : Nat) :
    wordField fw (w * 2 ^ fw + v) (k + 1) = wordField fw w k := by
  rw [wordField_succ, Nat.add_comm, Nat.add_mul_div_right _ _ (Nat.two_pow_pos fw), Nat.div_eq_of_lt hv, Nat.zero_add]

/-- A word of `n` bits and one more field have `n + fw` bits. -/
theorem append_field_lt {fw n w v : Nat} (hw : w < 2 ^ n) (hv : v < 2 ^ fw) : w * 2 ^ fw + v < 2 ^ (n + fw) :=
  calc w * 2 ^ fw + v < (w + 1) * 2 ^ fw := by rw [Nat.add_mul, Nat.one_mul]; omega
    _ ≤ 2 ^ n * 2 ^ fw := Nat.mul_le_mul_right _ hw
    _ = 2 ^ (n + fw) := (Nat.pow_add 2 n fw).symm

section Fits

variable {fw : Nat} {r : Record} (ho : r.opcode < 2 ^ fw) (hd : r.dst < 2 ^ fw) (hl : r.lhs < 2 ^ fw)
  (hr : r.rhs < 2 ^ fw)
include ho hd hl hr

theorem ofWord_toWord : Record.ofWord fw (r.toWord fw) = r := by
  simp [Record.ofWord, Record.toWord, hd, hl, hr, Nat.mod_eq_of_lt, ho]

theorem toWord_lt : r.toWord fw < 2 ^ (4 * fw) := by
  have h := append_field_lt (append_field_lt (append_field_lt ho hd) hl) hr
  rwa [show fw + fw + fw + fw = 4 * fw by omega] at h

end Fits

/-- Every word of four fields is the word of the record it spells: its first field is all that is left above the
others. -/
theorem toWord_ofWord {fw w : Nat} (hw : w < 2 ^ (4 * fw)) : (Record.ofWord fw w).toWord fw = w := by
  have hfirst : w / 2 ^ fw / 2 ^ fw / 2 ^ fw < 2 ^ fw := by
    simp only [Nat.div_div_eq_div_mul, ← Nat.pow_add]
    exact Nat.div_lt_of_lt_mul (by rwa [← Nat.pow_add, show fw + fw + fw + fw = 4 * fw by omega])
  simp [Record.ofWord, Record.toWord, wordField_succ, Nat.mod_eq_of_lt hfirst, Nat.div_add_mod']

/-- Settles O49: the fields are the digits of the word in base `2 ^ fw`. -/
theorem recordsAndWordsAreInverse : Obligations.RecordsAndWordsAreInverse :=
  fun _ => ⟨fun _ ho hd hl hr => ⟨ofWord_toWord ho hd hl hr, toWord_lt ho hd hl hr⟩, fun _ hw => toWord_ofWord hw⟩

/-! Instructions and their words (spec/30_encoding.md R46 to R49, R53). -/

theorem record_wellFormed_iff {fw : Nat} {r : Record} : r.wellFormed fw = true ↔
    r.opcode ≤ 13 ∧ r.opcode < 2 ^ fw ∧ r.dst < 2 ^ fw ∧ r.lhs < 2 ^ fw ∧ r.rhs < 2 ^ fw := by
  simp [Record.wellFormed, fieldFits_iff, and_assoc]

theorem programWellFormed_iff {fw pcw : Nat} {p : List Record} :
    programWellFormed fw pcw p = true ↔ p.length ≤ 2 ^ pcw - 1 ∧ ∀ r ∈ p, r.wellFormed fw = true := by
  simp [programWellFormed]

/-- An instruction is well-formed when its three fields fit; the 0 in place of one it does not read always does. -/
theorem wellFormed_eq_fields (fw : Nat) (i : Instr) : i.wellFormed fw =
    (fieldFits fw i.fields.1 && fieldFits fw i.fields.2.1 && fieldFits fw i.fields.2.2) := by
  have hzero : fieldFits fw 0 = true := fieldFits_iff.mpr (Nat.two_pow_pos fw)
  cases i <;> simp [Instr.wellFormed, Instr.fields, hzero]

/-- Four bits hold every opcode number. -/
theorem toRecord_wellFormed {fw : Nat} {i : Instr} (hfw : 4 ≤ fw) (hi : i.wellFormed fw = true) :
    i.toRecord.wellFormed fw = true := by
  have hop := i.toRecord_opcode_le
  have hpow : 2 ^ 4 ≤ 2 ^ fw := Nat.pow_le_pow_right (by decide) hfw
  simp only [wellFormed_eq_fields, Bool.and_eq_true, fieldFits_iff, and_assoc] at hi
  exact record_wellFormed_iff.mpr ⟨hop, by omega, hi⟩

/-- A well-formed instruction's record is read back from its word. -/
theorem ofWord_encodeWord {fw : Nat} {i : Instr} (hfw : 4 ≤ fw) (hi : i.wellFormed fw = true) :
    Record.ofWord fw (encodeWord fw i) = i.toRecord := by
  obtain ⟨-, ho, hd, hl, hr⟩ := record_wellFormed_iff.mp (toRecord_wellFormed hfw hi)
  exact ofWord_toWord ho hd hl hr

theorem encodeWord_lt {fw : Nat} {i : Instr} (hfw : 4 ≤ fw) (hi : i.wellFormed fw = true) :
    encodeWord fw i < 2 ^ (4 * fw) := by
  obtain ⟨-, ho, hd, hl, hr⟩ := record_wellFormed_iff.mp (toRecord_wellFormed hfw hi)
  exact toWord_lt ho hd hl hr

theorem decode_toRecord (i : Instr) : i.toRecord.decode = .ok i := (Laws.record_round_trip i).1

/-- Settles O48: the word spells the instruction's record, which decodes to the instruction. -/
theorem decodeOfEncodeIsTheInstruction : Obligations.DecodeOfEncodeIsTheInstruction := by
  intro fw i hfw hi
  refine ⟨?_, encodeWord_lt hfw hi⟩
  rw [decodeWord, ofWord_encodeWord hfw hi, decode_toRecord]

/-- A placed record stands at its index. -/
@[simp] theorem placeRecord_getElem? (p : List Record) (k : Nat) (r : Record) : (placeRecord p k r)[k]? = some r := by
  unfold placeRecord
  split
  · exact List.getElem?_set_self ‹_›
  · have hlen : (p ++ List.replicate (k - p.length) fillerRecord).length = k := by simp; omega
    rw [List.getElem?_append_right hlen.le, hlen, Nat.sub_self]
    rfl

/-- The host's number of an instruction is its word. -/
theorem tableWord_encode {i : Instr} (hi : i.wellFormed Config.fw = true) : tableWord 64 (encode i) = encode i := by
  have hlt : encode i < 2 ^ 64 := encodeWord_lt (by decide) hi
  rw [tableWord, Nat.mod_eq_of_lt hlt]
  exact Nat.mod_eq_of_lt hlt

/-- Settles O7: the placed record is the instruction's own, and it stands where the step fetches. -/
theorem placedWordRunsNext : Obligations.PlacedWordRunsNext := by
  intro i s hi
  have hword : Record.ofWord Config.fw (tableWord 64 (encode i)) = i.toRecord := by
    rw [tableWord_encode hi]
    exact ofWord_encodeWord (by decide) hi
  have hdecode : decode (tableWord 64 (encode i)) = .ok i := by
    rw [decode, decodeWord, hword, decode_toRecord]
  refine ⟨by rw [decodeTableWord, hdecode], ?_, rfl, rfl, rfl, rfl, rfl⟩
  exact step_runs rfl (placeRecord_getElem? s.prog s.pc _) hdecode

/-- Settles O50: each word is evaluated. -/
theorem workedWordsDecode : Obligations.WorkedWordsDecode := by
  refine ⟨?_, ?_, ?_, ?_, ?_, ?_, ?_⟩ <;> decide

/-- An opcode value names the operation whose number it is. -/
theorem opcode_of_ofOpcode {v : Nat} {o : Operation} (h : Operation.ofOpcode v = .ok o) : o.opcode = v := by
  have hnodup : Operation.table.Nodup := by decide
  unfold Operation.ofOpcode at h
  split at h
  · cases h
    obtain ⟨hv, rfl⟩ := List.getElem?_eq_some_iff.mp ‹_›
    exact hnodup.idxOf_getElem v hv
  · cases h

/-- An operation makes the same instruction of records that agree on the fields its opcode reads. -/
theorem toInstr_congr {o : Operation} {r r' : Record}
    (hd : (Claims.fieldsRead o.opcode).1 = true → r.dst = r'.dst)
    (hl : (Claims.fieldsRead o.opcode).2.1 = true → r.lhs = r'.lhs)
    (hr : (Claims.fieldsRead o.opcode).2.2 = true → r.rhs = r'.rhs) : o.toInstr r = o.toInstr r' := by
  cases o with
  | arith op => cases op <;> simp [Operation.toInstr, hd rfl, hl rfl, hr rfl]
  | move => simp [Operation.toInstr, hd rfl, hl rfl]
  | print => simp [Operation.toInstr, hd rfl]
  | endRun => rfl
  | store => simp [Operation.toInstr, hd rfl, hl rfl]
  | load => simp [Operation.toInstr, hd rfl, hl rfl]
  | jumpIfZero => simp [Operation.toInstr, hl rfl]
  | jumpIfNotZero => simp [Operation.toInstr, hl rfl]
  | jump => simp [Operation.toInstr, hl rfl]

/-- Settles O51: the two records name the same operation, or none. -/
theorem unreadFieldsHaveNoEffect : Obligations.UnreadFieldsHaveNoEffect := by
  intro r r' hop hd hl hr
  unfold Record.decode
  rw [← hop]
  cases ho : Operation.ofOpcode r.opcode with
  | error e => rfl
  | ok o =>
    rw [← opcode_of_ofOpcode ho] at hd hl hr
    exact congrArg _ (toInstr_congr hd hl hr)

/-! The static range check (spec/30_encoding.md R64, last sentence). -/

@[simp] theorem rangesOk_arithInstr (op : AluOp) (d l r : Nat) :
    (Claims.arithInstr op d l r).rangesOk = (decide (d ≤ 7) && decide (l ≤ 7) && decide (r ≤ 7)) := by cases op <;> rfl

/-- A jump whose target is at least 1 does not fault, taken or not. -/
theorem jumpFault_none_of_pos {taken : Bool} {t k : Nat} (h : decide (1 ≤ t) = true) : jumpFault taken t k = none :=
  jumpFault_none.mpr fun ⟨_, ht⟩ => by simp [ht] at h

/-- Operands in range pass every check. -/
theorem faultOf_none_of_rangesOk {i : Instr} (h : i.rangesOk = true) (s : State) : faultOf i s = none := by
  cases i using instr_cases with
  | arith op d l r =>
    have ⟨⟨hd, hl⟩, hr⟩ : (d ≤ 7 ∧ l ≤ 7) ∧ r ≤ 7 := by simpa using h
    rw [faultOf_arithInstr]
    exact arithFault_none.mpr (by omega)
  | move d v =>
    have hd : d ≤ 7 := of_decide_eq_true h
    exact if_neg (by omega)
  | print d =>
    have hd : d ≤ 7 := of_decide_eq_true h
    exact if_neg (by omega)
  | endRun => rfl
  | store a l =>
    have ⟨ha, hl⟩ : a ≤ 255 ∧ l ≤ 7 := by simpa [Instr.rangesOk] using h
    exact faultOf_store_none.mpr (by omega)
  | load d a =>
    have ⟨hd, ha⟩ : d ≤ 7 ∧ a ≤ 255 := by simpa [Instr.rangesOk] using h
    exact faultOf_load_none.mpr (by omega)
  | jumpIfZero t => exact jumpFault_none_of_pos h
  | jumpIfNotZero t => exact jumpFault_none_of_pos h
  | jump t => exact jumpFault_none_of_pos h

/-- Every record of a program that passes the check decodes to an instruction with its operands in range. -/
theorem decode_of_programRangesOk {p : List Record} {k : Nat} {r : Record} (h : programRangesOk p = true)
    (hr : p[k]? = some r) : ∃ i, r.decode = .ok i ∧ i.rangesOk = true := by
  have hrec := List.all_eq_true.mp h r (List.mem_of_getElem? hr)
  split at hrec
  · exact ⟨_, ‹_›, hrec⟩
  · cases hrec

theorem effectOf_notFaulted {i : Instr} {s : State} (hs : s.status = .running) : (effectOf i s).notFaulted := by
  intro f hf
  by_cases hi : i = .endRun
  · subst hi
    cases hf
  · rw [effectOf_status hi, hs] at hf
    cases hf

theorem step_notFaulted {s t : State} (hp : programRangesOk s.prog = true) (hs : s.notFaulted) (h : step s = .next t) :
    t.notFaulted := by
  rcases step_cases h with ⟨_, rfl⟩ | ⟨_, _, rfl⟩ | ⟨r, v, _, hr, hd, rfl⟩ | ⟨r, i, hrun, hr, hd, rfl⟩
  · exact hs
  · rintro f ⟨⟩
  · obtain ⟨i, hi, -⟩ := decode_of_programRangesOk hp hr
    rw [hd] at hi
    cases hi
  · obtain ⟨j, hj, hranges⟩ := decode_of_programRangesOk hp hr
    obtain rfl : i = j := by rw [hd] at hj; cases hj; rfl
    rw [nextOf, faultOf_none_of_rangesOk hranges]
    exact effectOf_notFaulted hrun

/-- Settles O47: that the program passes the check and the state is not Faulted is kept by every step. -/
theorem staticRangeCheckRulesOutFaults : Obligations.StaticRangeCheckRulesOutFaults := by
  intro p k t hp h
  have hkeep : ∀ s t : State, programRangesOk s.prog = true ∧ s.notFaulted → step s = .next t →
      programRangesOk t.prog = true ∧ t.notFaulted := fun s t ⟨hp, hs⟩ h =>
    ⟨(step_prog h).symm ▸ hp, step_notFaulted hp hs h⟩
  have hload : programRangesOk (State.load p).prog = true ∧ (State.load p).notFaulted := ⟨hp, by rintro f ⟨⟩⟩
  exact (runsTo_keeps hkeep hload h).2

end Sys2Proof.Machine

namespace Sys2Proof.Loader

open Sys2Proof.Machine

/-! What each part of the Loader accepts (spec/30_encoding.md R58 to R60). -/

/-- A record is accepted, unchanged, exactly when it is well-formed. -/
theorem checkRecord_eq_ok {fw : Nat} {r r' : Record} :
    checkRecord fw r = .ok r' ↔ r.wellFormed fw = true ∧ r = r' := by
  by_cases hop : r.opcode ≤ 13
  · rw [checkRecord, if_neg (by omega)]
    grind [Record.wellFormed]
  · rw [checkRecord, if_pos (by omega)]
    simp [Record.wellFormed, hop]

theorem wellFormed_of_recordOfLine {fw : Nat} {line : List Char} {r : Record} (h : recordOfLine fw line = .ok r) :
    r.wellFormed fw = true := by
  unfold recordOfLine at h
  split at h
  · split at h
    · obtain ⟨hwf, rfl⟩ := checkRecord_eq_ok.mp h
      exact hwf
    · cases h
  · cases h

/-- Every line the Loader does not skip gives one record. -/
theorem recordsOfLines_cons {fw : Nat} {line : List Char} {r : Record} {rest : List (List Char)} {p : List Record}
    (hs : skipped line = false) (hr : recordOfLine fw line = .ok r) (hp : recordsOfLines fw rest = .ok p) :
    recordsOfLines fw (line :: rest) = .ok (r :: p) := by
  simp [recordsOfLines, hs, hr, hp]

theorem wellFormed_of_recordsOfLines {fw : Nat} {lines : List (List Char)} {p : List Record}
    (h : recordsOfLines fw lines = .ok p) : ∀ r ∈ p, r.wellFormed fw = true := by
  induction lines generalizing p with
  | nil =>
    cases h
    exact fun r hr => absurd hr List.not_mem_nil
  | cons line rest ih =>
    unfold recordsOfLines at h
    split at h
    · exact ih h
    · split at h
      · cases h
      · split at h
        · cases h
        · cases h
          exact List.forall_mem_cons.mpr ⟨wellFormed_of_recordOfLine ‹_›, ih ‹_›⟩

theorem load_eq_ok {fw pcw : Nat} {text : List Char} {p : List Record} :
    load fw pcw text = .ok p ↔ recordsOfLines fw (splitOn '\n' text) = .ok p ∧ p.length ≤ 2 ^ pcw - 1 := by
  unfold load
  cases recordsOfLines fw (splitOn '\n' text) with
  | error e => simp
  | ok q =>
    by_cases hq : q.length ≤ 2 ^ pcw - 1
    · simp only [hq, if_true, Except.ok.injEq]
      exact ⟨fun h => ⟨h, h ▸ hq⟩, And.left⟩
    · simp only [hq, if_false, Except.ok.injEq]
      exact ⟨nofun, fun ⟨h, hp⟩ => absurd (h ▸ hp) hq⟩

/-- Settles O53: the Loader checks the length, and each record line by line. -/
theorem loaderAcceptsOnlyWellFormedPrograms : Obligations.LoaderAcceptsOnlyWellFormedPrograms := by
  intro fw pcw text p h
  obtain ⟨hrecords, hlen⟩ := load_eq_ok.mp h
  exact programWellFormed_iff.mpr ⟨hlen, wellFormed_of_recordsOfLines hrecords⟩

/-! Cutting a text at its separators. -/

theorem splitOn_ne_nil (sep : Char) (cs : List Char) : splitOn sep cs ≠ [] := by
  cases cs with
  | nil => simp [splitOn]
  | cons c cs =>
    unfold splitOn
    split
    · simp
    · split <;> simp

theorem splitOn_cons_sep (sep : Char) (cs : List Char) : splitOn sep (sep :: cs) = [] :: splitOn sep cs := by
  cases h : splitOn sep cs with
  | nil => exact absurd h (splitOn_ne_nil sep cs)
  | cons p ps => simp [splitOn, h]

theorem splitOn_cons_other {sep c : Char} {cs p : List Char} {ps : List (List Char)} (hc : c ≠ sep)
    (h : splitOn sep cs = p :: ps) : splitOn sep (c :: cs) = (c :: p) :: ps := by
  simp [splitOn, h, hc]

/-- A piece without a separator and a separator after it. -/
theorem splitOn_append_sep {sep : Char} {piece : List Char} (h : sep ∉ piece) (rest : List Char) :
    splitOn sep (piece ++ sep :: rest) = piece :: splitOn sep rest := by
  induction piece with
  | nil => exact splitOn_cons_sep sep rest
  | cons c cs ih =>
    obtain ⟨hc, hcs⟩ := List.ne_and_not_mem_of_not_mem_cons h
    exact splitOn_cons_other (Ne.symm hc) (ih hcs)

/-- A text without a separator is one piece. -/
theorem splitOn_of_not_mem {sep : Char} {piece : List Char} (h : sep ∉ piece) : splitOn sep piece = [piece] := by
  induction piece with
  | nil => rfl
  | cons c cs ih =>
    obtain ⟨hc, hcs⟩ := List.ne_and_not_mem_of_not_mem_cons h
    exact splitOn_cons_other (Ne.symm hc) (ih hcs)

/-! Numerals. -/

/-- A numeral read in two parts. -/
theorem numeral_append (acc : Nat) (xs ys : List Char) :
    numeral acc (xs ++ ys) = (numeral acc xs).bind (numeral · ys) := by
  induction acc, xs using numeral.induct with
  | case1 acc => rfl
  | case2 acc cs ih => exact ih
  | case3 acc cs ih => exact ih
  | case4 acc c cs h0 h1 => simp [numeral]

theorem numeral_digits {w n : Nat} (h : n < 2 ^ w) : numeral 0 (digits w n) = some n := by
  induction w generalizing n with
  | zero =>
    obtain rfl : n = 0 := by omega
    rfl
  | succ w ih =>
    have hhalf : n / 2 < 2 ^ w := by omega
    rw [digits, numeral_append, ih hhalf, Option.bind_some]
    split
    · exact congrArg some (by omega : 2 * (n / 2) + 1 = n)
    · exact congrArg some (by omega : 2 * (n / 2) = n)

theorem mem_digits {w n : Nat} {c : Char} (h : c ∈ digits w n) : c = '0' ∨ c = '1' := by
  induction w generalizing n with
  | zero => cases h
  | succ w ih =>
    rw [digits, List.mem_append, List.mem_singleton] at h
    rcases h with h | rfl
    · exact ih h
    · split
      · exact .inr rfl
      · exact .inl rfl

theorem space_not_mem_digits (w n : Nat) : ' ' ∉ digits w n := fun h => absurd (mem_digits h) (by decide)

theorem digits_ne_nil {w : Nat} (h : 0 < w) (n : Nat) : digits w n ≠ [] := by
  obtain ⟨w, rfl⟩ := Nat.exists_eq_succ_of_ne_zero h.ne'
  simp [digits]

/-! The line of a record. -/

theorem mem_lineOfRecord {fw : Nat} {r : Record} {c : Char} (h : c ∈ lineOfRecord fw r) :
    c = '0' ∨ c = '1' ∨ c = ' ' := by
  simp only [lineOfRecord, List.mem_append, List.mem_singleton] at h
  grind [mem_digits]

/-- It is neither empty nor, holding no `-`, a comment. -/
theorem skipped_lineOfRecord (fw : Nat) (r : Record) : skipped (lineOfRecord fw r) = false := by
  unfold skipped
  split
  · have hnil : lineOfRecord fw r = [] := ‹_›
    simp [lineOfRecord] at hnil
  · exact absurd (mem_lineOfRecord (fw := fw) (r := r) (c := '-') (by simp [*])) (by decide)
  · rfl

theorem splitOn_lineOfRecord (fw : Nat) (r : Record) : splitOn ' ' (lineOfRecord fw r) =
    [digits fw r.opcode, digits fw r.dst, digits fw r.lhs, digits fw r.rhs] := by
  simp [lineOfRecord, splitOn_append_sep, splitOn_of_not_mem, space_not_mem_digits]

section Line

variable {fw : Nat} (hfw : 0 < fw)
include hfw

theorem tokens_lineOfRecord (r : Record) : tokens (lineOfRecord fw r) =
    some [digits fw r.opcode, digits fw r.dst, digits fw r.lhs, digits fw r.rhs] := by
  simp [tokens, splitOn_lineOfRecord, digits_ne_nil hfw]

theorem recordOfLine_lineOfRecord {r : Record} (hr : r.wellFormed fw = true) :
    recordOfLine fw (lineOfRecord fw r) = .ok r := by
  obtain ⟨-, hop, hd, hl, hrhs⟩ := record_wellFormed_iff.mp hr
  simp only [recordOfLine, tokens_lineOfRecord hfw, numeral_digits hop, numeral_digits hd, numeral_digits hl,
    numeral_digits hrhs]
  exact checkRecord_eq_ok.mpr ⟨hr, rfl⟩

/-- The lines of a text of a program: those of its records, and an empty one at the end. -/
theorem recordsOfLines_textOfProgram {p : List Record} (hp : ∀ r ∈ p, r.wellFormed fw = true) :
    recordsOfLines fw (splitOn '\n' (textOfProgram fw p)) = .ok p := by
  induction p with
  | nil => rfl
  | cons r p ih =>
    obtain ⟨hr, hp⟩ := List.forall_mem_cons.mp hp
    have hline : '\n' ∉ lineOfRecord fw r := fun h => absurd (mem_lineOfRecord h) (by decide)
    rw [textOfProgram, splitOn_append_sep hline]
    exact recordsOfLines_cons (skipped_lineOfRecord fw r) (recordOfLine_lineOfRecord hfw hr) (ih hp)

end Line

/-- Settles O52: each line is read back as its record, and the length is within bounds. -/
theorem loaderReadsTheTextOfAProgram : Obligations.LoaderReadsTheTextOfAProgram := by
  intro fw pcw p hfw hp
  obtain ⟨hlen, hrecords⟩ := programWellFormed_iff.mp hp
  exact load_eq_ok.mpr ⟨recordsOfLines_textOfProgram (by omega) hrecords, hlen⟩

end Sys2Proof.Loader

namespace Sys2Proof.Machine

/-! When an arithmetic sub-operation completes and what it raises (spec/40_alu_arithmetic_logic.md R74). -/

theorem arithFault_lhs {l : Nat} (hl : 8 ≤ l) (d r : Nat) : arithFault d l r = some (.outOfRangeRegister l) :=
  if_pos hl

theorem arithFault_rhs {l r : Nat} (hl : l < 8) (hr : 8 ≤ r) (d : Nat) :
    arithFault d l r = some (.outOfRangeRegister r) := by
  simp [arithFault, Nat.not_le.mpr hl, hr]

theorem arithFault_dst {d l r : Nat} (hl : l < 8) (hr : r < 8) (hd : 8 ≤ d) :
    arithFault d l r = some (.outOfRangeRegister d) := by
  simp [arithFault, Nat.not_le.mpr hl, Nat.not_le.mpr hr, hd]

theorem exec_arithInstr_fault {d l r : Nat} {f : Fault} (h : arithFault d l r = some f) (op : AluOp) (s : State) :
    exec (Claims.arithInstr op d l r) s = .next (s.raise f) :=
  exec_fault ((faultOf_arithInstr op d l r s).trans h)

theorem exec_arithInstr_ok {d l r : Nat} (hd : d < 8) (hl : l < 8) (hr : r < 8) (op : AluOp) (s : State) :
    exec (Claims.arithInstr op d l r) s = .next (arithEffect op d l r s) := by
  rw [exec_ok ((faultOf_arithInstr op d l r s).trans (arithFault_none.mpr ⟨hd, hl, hr⟩)), effectOf_arithInstr]

/-- Settles O28: no register but the destination is written, and neither a fault raised nor the effect touches the
memory, the output or the program. -/
theorem arithmeticFrame : Obligations.ArithmeticFrame := by
  intro op d l r s t h
  have hregs : Claims.SameRegsBut d s t := fun j hj => by
    have hw : Claims.writesReg (Claims.arithInstr op d l r) ≠ some j.val := by
      rw [writesReg_arithInstr]
      exact fun he => hj (Option.some.inj he).symm
    exact eq_nextOf h ▸ nextOf_reg hw s
  refine ⟨hregs, ?_⟩
  rcases exec_next h with ⟨f, -, rfl⟩ | ⟨-, rfl⟩
  · exact ⟨fun _ => rfl, rfl, rfl, rfl⟩
  · rw [effectOf_arithInstr]
    exact ⟨fun _ => rfl, rfl, rfl, rfl⟩

/-- Settles O16: the first check that fails, in the order `lhs`, `rhs`, `dst`, raises its fault. -/
theorem arithmeticFaultsInFieldOrder : Obligations.ArithmeticFaultsInFieldOrder := fun op d _ r s =>
  ⟨fun hl => exec_arithInstr_fault (arithFault_lhs hl d r) op s,
    fun hl hr => exec_arithInstr_fault (arithFault_rhs (Nat.lt_succ_of_le hl) hr d) op s,
    fun hl hr hd => exec_arithInstr_fault (arithFault_dst (Nat.lt_succ_of_le hl) (Nat.lt_succ_of_le hr) hd) op s⟩

/-- The rule of one sub-operation, from what its result byte is for every pair of operands: the flags, the frame and
the faults are the same for the six. -/
theorem arithRule_of_aluResult {op : AluOp} {result : Byte → Byte → Byte → Prop}
    (hresult : ∀ a b, result a b (aluResult op a b)) : Claims.ArithRule op result := by
  intro d l r s
  refine ⟨fun hd hl hr => ?_, fun hbad => ?_⟩
  · have hexec := exec_arithInstr_ok hd hl hr op s
    obtain ⟨hregs, hmem, -⟩ := arithmeticFrame op d l r s _ hexec
    refine ⟨_, hexec, ?_, ?_, hregs, hmem, rfl, rfl, rfl, rfl⟩
    · rw [← regIdx_eq hd, arithEffect_reg, regIdx_eq hl, regIdx_eq hr]
      exact hresult _ _
    · rw [← regIdx_eq hd, arithEffect_reg, arithEffect_flags, regIdx_eq hl, regIdx_eq hr]
      exact aluFlags_eq_table op _ _
  · have hfault : arithFault d l r ≠ none := fun h => by
      obtain ⟨hd, hl, hr⟩ := arithFault_none.mp h
      omega
    obtain ⟨f, hf⟩ := Option.ne_none_iff_exists'.mp hfault
    obtain ⟨i, rfl, hi, hwhich⟩ := arithFault_some hf
    exact ⟨_, i, exec_arithInstr_fault hf op s, rfl, hi, hwhich⟩

/-! The result byte, bit by bit and as arithmetic on bytes (spec/40_alu_arithmetic_logic.md R66 to R69). -/

theorem aluResult_and_bit (a b : Byte) (i : Nat) :
    (aluResult .and a b).getLsbD i = (a.getLsbD i && b.getLsbD i) := BitVec.getLsbD_and

theorem aluResult_or_bit (a b : Byte) (i : Nat) :
    (aluResult .or a b).getLsbD i = (a.getLsbD i || b.getLsbD i) := BitVec.getLsbD_or

theorem aluResult_xor_bit (a b : Byte) (i : Nat) :
    (aluResult .xor a b).getLsbD i = (a.getLsbD i ^^ b.getLsbD i) := BitVec.getLsbD_xor

theorem aluResult_not_bit (a b : Byte) {i : Nat} (hi : i < 8) : (aluResult .not a b).getLsbD i = !a.getLsbD i := by
  simp [aluResult_not, hi]

theorem aluResult_add (a b : Byte) : aluResult .add a b = a + b := by
  apply BitVec.eq_of_toNat_eq
  rw [aluResult_add_toNat, BitVec.toNat_add]

theorem aluResult_sub (a b : Byte) : aluResult .sub a b = a - b := by
  apply BitVec.eq_of_toNat_eq
  have ha := a.isLt
  have hb := b.isLt
  rw [aluResult_sub_toNat, BitVec.toNat_sub]
  split <;> omega

/-- The result of SUB is zero exactly when the operands are equal. -/
theorem aluResult_sub_eq_zero (a b : Byte) : aluResult .sub a b = 0 ↔ a = b := by
  rw [aluResult_sub]
  exact sub_eq_zero

/-- The sum of two bytes has nine bits, so its bit 8 says whether it is 256 or more (R66). -/
theorem aluCarry_add_eq_bit (a b : Byte) : aluCarry .add a b = (a.toNat + b.toNat).testBit 8 := by
  have ha := a.isLt
  have hb := b.isLt
  rw [Nat.testBit_eq_decide_div_mod_eq]
  exact decide_eq_decide.mpr (by omega)

/-- Settles O10: the common rule, from the sum as a number. -/
theorem addWritesTheWrappedSum : Obligations.AddWritesTheWrappedSum :=
  arithRule_of_aluResult aluResult_add_toNat

/-- Settles O11: the common rule, from the difference as an integer, `lhs` minus `rhs`. -/
theorem subWritesTheWrappedDifference : Obligations.SubWritesTheWrappedDifference :=
  arithRule_of_aluResult aluResult_sub_toInt

/-- Settles O12: the common rule, from the result bit by bit. -/
theorem andWritesTheBitwiseAnd : Obligations.AndWritesTheBitwiseAnd :=
  arithRule_of_aluResult fun a b i _ => aluResult_and_bit a b i

/-- Settles O13: the common rule, from the result bit by bit. -/
theorem orWritesTheBitwiseOr : Obligations.OrWritesTheBitwiseOr :=
  arithRule_of_aluResult fun a b i _ => aluResult_or_bit a b i

/-- Settles O14: the common rule, from the result bit by bit. -/
theorem xorWritesTheBitwiseExclusiveOr : Obligations.XorWritesTheBitwiseExclusiveOr :=
  arithRule_of_aluResult fun a b i _ => aluResult_xor_bit a b i

/-- Settles O15: the common rule, from the complement of `lhs`, as a number and bit by bit. -/
theorem notWritesTheComplement : Obligations.NotWritesTheComplement :=
  arithRule_of_aluResult fun a b => ⟨aluResult_not_toNat a b, fun _ hi => aluResult_not_bit a b hi⟩

/-- Settles O9: the results by the sub-operation, the flags for all six from the result byte. -/
theorem aluTableForEveryBytePair : Obligations.AluTableForEveryBytePair := by
  intro a b
  exact ⟨⟨aluResult_add_toNat a b, rfl, aluCarry_add_eq_bit a b⟩, ⟨aluResult_sub_toNat a b, rfl⟩,
    fun i _ => aluResult_and_bit a b i, fun i _ => aluResult_or_bit a b i, fun i _ => aluResult_xor_bit a b i,
    ⟨fun i hi => aluResult_not_bit a b hi, aluResult_not_toNat a b, fun _ => ⟨rfl, rfl⟩⟩, ⟨rfl, rfl, rfl, rfl⟩,
    fun op => ⟨rfl, zeroFlag_eq _, rfl, negativeFlag_eq_bit _⟩⟩

/-! The facts of spec/40_alu_arithmetic_logic.md R73 about one result byte or one Carry. -/

theorem aluCarry_of_logic {op : AluOp} (hadd : op ≠ .add) (hsub : op ≠ .sub) (a b : Byte) :
    aluCarry op a b = false := by
  cases op with
  | add => exact absurd rfl hadd
  | sub => exact absurd rfl hsub
  | _ => rfl

/-- A borrow excludes equal operands, and so a zero result. -/
theorem aluResult_sub_ne_zero_of_carry {a b : Byte} (h : aluCarry .sub a b = true) : aluResult .sub a b ≠ 0 := by
  have hlt : a.toNat < b.toNat := of_decide_eq_true h
  rw [Ne, aluResult_sub_eq_zero]
  rintro rfl
  exact lt_irrefl _ hlt

theorem aluResult_not_eq_xor (a b : Byte) : aluResult .not a b = aluResult .xor a 255 := by
  rw [aluResult_not, ← BitVec.xor_allOnes]
  rfl

/-- SUB is ADD of the complement and 1. -/
theorem aluResult_sub_toNat_complement (a b : Byte) :
    (aluResult .sub a b).toNat = (a.toNat + (255 - b.toNat) + 1) % 256 := by
  have ha := a.isLt
  have hb := b.isLt
  rw [aluResult_sub_toNat]
  split <;> omega

/-- Its borrow is the complement of that sum's carry. -/
theorem aluCarry_sub_complement (a b : Byte) :
    aluCarry .sub a b = !decide (a.toNat + (255 - b.toNat) + 1 ≥ 256) := by
  have hb := b.isLt
  rw [← decide_not]
  exact decide_eq_decide.mpr (by omega)

theorem aluCarry_add_zero (a : Byte) : aluCarry .add a 0 = false :=
  decide_eq_false (Nat.not_le.mpr a.isLt)

theorem aluCarry_sub_zero (a : Byte) : aluCarry .sub a 0 = false :=
  decide_eq_false (Nat.not_lt_zero a.toNat)

theorem aluCarry_zero_sub (b : Byte) : aluCarry .sub 0 b = true ↔ b ≠ 0 := by
  have hpos : aluCarry .sub 0 b = true ↔ 0 < b.toNat := decide_eq_true_iff
  rw [hpos, Nat.pos_iff_ne_zero, Ne, Ne, BitVec.toNat_eq]
  rfl

/-- Settles O17: (a) to (h) of R73 in their order, the worked sums of (c) by evaluation. -/
theorem aluFactsDerivedInTheSpec : Obligations.AluFactsDerivedInTheSpec := by
  refine ⟨fun op a b => zero_negative_exclusive _,
    fun op a b hadd hsub => aluCarry_of_logic hadd hsub a b,
    by decide,
    fun a b => ⟨fun hz => ?_, aluResult_sub_ne_zero_of_carry⟩,
    fun a b => ⟨aluResult_not_eq_xor a b, ?_⟩,
    fun a => ?_,
    fun a b => ⟨aluResult_sub_toNat_complement a b, aluCarry_sub_complement a b⟩,
    fun a => ?_,
    fun b => ⟨?_, aluCarry_zero_sub b⟩⟩
  · have hzero : aluResult .sub a b = 0 := of_decide_eq_true hz
    exact Bool.eq_false_iff.mpr fun hc => aluResult_sub_ne_zero_of_carry hc hzero
  · rw [aluFlags, aluFlags, aluResult_not_eq_xor]
    rfl
  · have hxor : aluResult .xor a a = 0 := BitVec.xor_self
    exact ⟨hxor, decide_eq_true hxor, BitVec.and_self, BitVec.or_self⟩
  · rw [aluResult_add, aluResult_sub]
    exact ⟨BitVec.add_zero a, aluCarry_add_zero a, BitVec.sub_zero a, aluCarry_sub_zero a⟩
  · rw [aluResult_sub, BitVec.toNat_sub]
    rfl

/-- Settles O18: Zero is that the difference is 0, Carry the borrow; neither leaves the order the other way round. -/
theorem subComparesUnsigned : Obligations.SubComparesUnsigned := by
  intro d l r hd hl hr s
  refine ⟨_, exec_arithInstr_ok hd hl hr .sub s, ?_⟩
  rw [← regIdx_eq hd, ← regIdx_eq hl, ← regIdx_eq hr, arithEffect_reg, arithEffect_flags]
  generalize s.reg (regIdx l) = a
  generalize s.reg (regIdx r) = b
  have hz : (aluFlags .sub a b).z = true ↔ a = b := decide_eq_true_iff.trans (aluResult_sub_eq_zero a b)
  have hc : (aluFlags .sub a b).c = true ↔ a.toNat < b.toNat := decide_eq_true_iff
  refine ⟨hz, hc, ?_, aluResult_sub a b⟩
  rw [← Bool.not_eq_true, ← Bool.not_eq_true, hz, hc, BitVec.toNat_eq]
  omega

end Sys2Proof.Machine

namespace Sys2Proof.Machine

/-! What MOVE, STORE and LOAD raise and what they write (spec/41_data_movement.md R85 to R87). -/

theorem faultOf_move_none {d v : Nat} {s : State} : faultOf (.move d v) s = none ↔ d < 8 := by
  simp [faultOf]

theorem exec_move_fault {d : Nat} (hd : 8 ≤ d) (v : Nat) (s : State) :
    exec (.move d v) s = .next (s.raise (.outOfRangeRegister d)) :=
  exec_fault (if_pos hd)

theorem exec_store_fault_lhs {l : Nat} (hl : 8 ≤ l) (a : Nat) (s : State) :
    exec (.store a l) s = .next (s.raise (.outOfRangeRegister l)) :=
  exec_fault (if_pos hl)

theorem exec_store_fault_dst {a l : Nat} (hl : l < 8) (ha : 256 ≤ a) (s : State) :
    exec (.store a l) s = .next (s.raise (.outOfRangeMemory a)) :=
  exec_fault ((if_neg (Nat.not_le.mpr hl)).trans (if_pos ha))

theorem exec_load_fault_lhs {a : Nat} (ha : 256 ≤ a) (d : Nat) (s : State) :
    exec (.load d a) s = .next (s.raise (.outOfRangeMemory a)) :=
  exec_fault (if_pos ha)

theorem exec_load_fault_dst {d a : Nat} (ha : a < 256) (hd : 8 ≤ d) (s : State) :
    exec (.load d a) s = .next (s.raise (.outOfRangeRegister d)) :=
  exec_fault ((if_neg (Nat.not_le.mpr ha)).trans (if_pos hd))

@[simp] theorem effectOf_move_reg (d v : Nat) (s : State) : (effectOf (.move d v) s).reg (regIdx d) = trunc8 v :=
  State.setReg_reg_same _ _ _

@[simp] theorem effectOf_load_reg (d a : Nat) (s : State) :
    (effectOf (.load d a) s).reg (regIdx d) = s.memRead (memIdx a) :=
  State.setReg_reg_same _ _ _

theorem effectOf_store_memRead {s : State} (h : s.mem.wf) (a l : Nat) :
    (effectOf (.store a l) s).memRead (memIdx a) = s.reg (regIdx l) :=
  (State.memWrite_memRead h _ _ _).trans (if_pos rfl)

/-- A step that does not end Faulted passed every check of its instruction and has its effect. -/
theorem step_completes {s t : State} {i : Instr} (hi : s.nextInstr = some i) (h : step s = .next t)
    (hn : t.notFaulted) : faultOf i s = none ∧ t = effectOf i s := by
  rw [step_nextInstr hi] at h
  rcases exec_next h with ⟨f, -, rfl⟩ | hok
  · exact absurd rfl (hn f)
  · exact hok

/-- Settles O37: the STORE puts the register in the cell, the run leaves the cell as it was, the LOAD reads it. -/
theorem storeThenLoadRoundTrip : Obligations.StoreThenLoadRoundTrip := by
  intro m r d k s t₀ t₁ t₂ hwf hstore hstep₀ hn₀ hno hrun hload hstep₂ hn₂
  obtain ⟨hf₀, rfl⟩ := step_completes hstore hstep₀ hn₀
  obtain ⟨hf₂, rfl⟩ := step_completes hload hstep₂ hn₂
  obtain ⟨hr, hm⟩ := faultOf_store_none.mp hf₀
  obtain ⟨-, hd⟩ := faultOf_load_none.mp hf₂
  have hcell : (memIdx m).val = m := congrArg Fin.val (memIdx_eq hm)
  refine ⟨hr, hd, ?_⟩
  rw [← regIdx_eq hd, ← regIdx_eq hr]
  calc (effectOf (.load d m) t₁).reg (regIdx d)
      = t₁.memRead (memIdx m) := effectOf_load_reg d m t₁
    _ = (effectOf (.store m r) s).memRead (memIdx m) := runsTo_memRead (hcell.symm ▸ hno) hrun
    _ = s.reg (regIdx r) := effectOf_store_memRead hwf m r

/-- Settles O29: no register but the destination is written, and neither a fault raised nor either effect touches the
memory, the flags, the output or the program. -/
theorem moveAndLoadFrame : Obligations.MoveAndLoadFrame := by
  intro i d v s t hi h
  have hwrites : Claims.writesReg i = some d := by rcases hi with rfl | rfl <;> rfl
  have hregs : Claims.SameRegsBut d s t := fun j hj =>
    eq_nextOf h ▸ nextOf_reg (fun hw => hj (Option.some.inj (hw.symm.trans hwrites))) s
  refine ⟨hregs, ?_⟩
  rcases exec_next h with ⟨f, -, rfl⟩ | ⟨-, rfl⟩
  · exact ⟨fun _ => rfl, rfl, rfl, rfl, rfl⟩
  · rcases hi with rfl | rfl
    · exact ⟨fun _ => rfl, rfl, rfl, rfl, rfl⟩
    · exact ⟨fun _ => rfl, rfl, rfl, rfl, rfl⟩

/-- Settles O30: another cell is not this STORE's, and neither a fault raised nor the effect touches the registers, the
flags, the output or the program. -/
theorem storeFrame : Obligations.StoreFrame := by
  intro a l s t h
  have hcells : ∀ b : Fin 256, b.val ≠ a → t.memRead b = s.memRead b := fun b hb =>
    eq_nextOf h ▸ nextOf_memRead (fun _ he => hb (Instr.store.inj he).1.symm) s
  refine ⟨hcells, ?_⟩
  rcases exec_next h with ⟨f, -, rfl⟩ | ⟨-, rfl⟩
  · exact ⟨fun _ => rfl, rfl, rfl, rfl⟩
  · exact ⟨fun _ => rfl, rfl, rfl, rfl⟩

/-- Settles O19: the effect and the frame of MOVE where its check passes; else the fault of its check. -/
theorem moveWritesTheTruncatedImmediate : Obligations.MoveWritesTheTruncatedImmediate := by
  intro d v s
  refine ⟨fun hd => ?_, fun hd => ⟨_, exec_move_fault hd v s, rfl⟩⟩
  have hexec := exec_ok (faultOf_move_none.mpr hd : faultOf (.move d v) s = none)
  obtain ⟨hregs, hmem, -, hflags, -⟩ := moveAndLoadFrame _ d v s _ (.inl rfl) hexec
  refine ⟨_, hexec, ?_, hflags, hregs, hmem, rfl, rfl, rfl, rfl⟩
  rw [← regIdx_eq hd, effectOf_move_reg]
  exact BitVec.toNat_ofNat v 8

/-- Settles O20: the effect and the frame of STORE where its checks pass; else the fault of the first that fails, `lhs`
before `dst`. -/
theorem storeWritesTheRegisterToTheCell : Obligations.StoreWritesTheRegisterToTheCell := by
  intro a l s
  refine ⟨fun ha hl hwf => ?_, fun hl => exec_store_fault_lhs hl a s,
    fun hl ha => exec_store_fault_dst (Nat.lt_succ_of_le hl) ha s⟩
  have hexec := exec_ok (faultOf_store_none.mpr ⟨hl, ha⟩ : faultOf (.store a l) s = none)
  obtain ⟨hcells, hregs, hflags, -⟩ := storeFrame a l s _ hexec
  refine ⟨_, hexec, ?_, hcells, effectOf_mem_wf _ hwf, hregs, hflags, rfl, rfl, rfl, rfl⟩
  rw [← memIdx_eq ha, ← regIdx_eq hl]
  exact effectOf_store_memRead hwf a l

/-- Settles O21: the effect and the frame of LOAD where its checks pass; else the fault of the first that fails, `lhs`
before `dst`. -/
theorem loadWritesTheCellToTheRegister : Obligations.LoadWritesTheCellToTheRegister := by
  intro d a s
  refine ⟨fun hd ha => ?_, fun ha => exec_load_fault_lhs ha d s,
    fun ha hd => exec_load_fault_dst (Nat.lt_succ_of_le ha) hd s⟩
  have hexec := exec_ok (faultOf_load_none.mpr ⟨ha, hd⟩ : faultOf (.load d a) s = none)
  obtain ⟨hregs, hmem, -, hflags, -⟩ := moveAndLoadFrame _ d a s _ (.inr rfl) hexec
  refine ⟨_, hexec, ?_, hregs, hmem, hflags, rfl, rfl, rfl, rfl⟩
  rw [← regIdx_eq hd, ← memIdx_eq ha]
  exact effectOf_load_reg d a s

end Sys2Proof.Machine

namespace Sys2Proof.Machine

/-! The step as a whole (spec/42_control_transfer.md R90, spec/60_exceptions.md R110). -/

/-- Settles O5: by what the step finds, a final status, no record, a record that is no instruction, or an instruction,
which answers a next state. -/
theorem stepAlwaysAnswersAState : Obligations.StepAlwaysAnswersAState := by
  intro s
  by_cases hs : s.status = .running
  · cases hp : s.prog[s.pc]? with
    | none => exact ⟨_, step_exhausted hs hp⟩
    | some r =>
      cases hd : r.decode with
      | error e => exact ⟨_, step_illegal hs hp hd⟩
      | ok i => exact ⟨_, (step_runs hs hp hd).trans (exec_eq i s)⟩
  · exact ⟨s, step_final hs⟩

/-- A record with an opcode above 13 is no instruction, and its opcode is what the decoder reports. -/
theorem decode_of_opcode_gt {r : Record} (h : 13 < r.opcode) : r.decode = .error (.illegalOpcode r.opcode) := by
  have hnone : Operation.table[r.opcode]? = none := List.getElem?_eq_none h
  simp [Record.decode, Operation.ofOpcode, hnone]

/-- A record with an opcode up to 13 is an instruction. -/
theorem decode_of_opcode_le {r : Record} (h : r.opcode ≤ 13) : ∃ i, r.decode = .ok i := by
  cases hd : r.decode with
  | ok i => exact ⟨i, rfl⟩
  | error e => exact absurd (opcode_of_decode_error hd) (Nat.not_lt.mpr h)

/-- Settles O4: what a step finds at the counter, clause by clause. -/
theorem stepRunsTheDecodedInstruction : Obligations.StepRunsTheDecodedInstruction := fun _ =>
  ⟨step_final, fun hs hpc => step_exhausted hs (List.getElem?_eq_none hpc),
    fun _ hs hp hop => step_illegal hs hp (decode_of_opcode_gt hop), fun _ _ hs hp hd => step_runs hs hp hd,
    fun _ => decode_of_opcode_le⟩

/-! The frame of the instructions that write neither a register nor a cell. -/

theorem nextOf_mem {i : Instr} (h : ∀ a l, i ≠ .store a l) (s : State) : (nextOf i s).mem = s.mem := by
  refine nextOf_lift (P := fun t => t.mem = s.mem) (fun _ _ => rfl) fun _ => ?_
  cases i with
  | store a l => exact absurd rfl (h a l)
  | _ => rfl

theorem nextOf_output {i : Instr} {s : State} (h : eventsOf i s = []) : (nextOf i s).output = s.output :=
  nextOf_lift (P := fun t => t.output = s.output) (fun _ _ => rfl) fun _ => by
    rw [effectOf_output, h, List.append_nil]

/-- Settles O31: none of the five writes a register, none is a STORE, and a jump has no event. -/
theorem jumpAndOutputFrame : Obligations.JumpAndOutputFrame := by
  intro i x s t hi h
  obtain rfl := eq_nextOf h
  have hwrites : Claims.writesReg i = none := by rcases hi with rfl | rfl | rfl | rfl | rfl <;> rfl
  have hmem : (nextOf i s).mem = s.mem := nextOf_mem (by rintro a l rfl; simp at hi) s
  have hevents : i = .jump x ∨ i = .jumpIfZero x ∨ i = .jumpIfNotZero x → eventsOf i s = [] := by
    rintro (rfl | rfl | rfl) <;> rfl
  exact ⟨fun j => nextOf_reg (by simp [hwrites]) s, fun a => congrArg (Memory.read · a) hmem, hmem,
    nextOf_flags (not_isArith_of_writesReg_none hwrites) s, nextOf_prog i s, fun hj => nextOf_output (hevents hj)⟩

/-! The three jumps and the two policies (spec/42_control_transfer.md R93 to R97). -/

theorem jumpIf_true (t : Nat) (s : State) : s.jumpIf true t = s.jumpTo Config.jump0Policy t := rfl

theorem jumpIf_false (t : Nat) (s : State) : s.jumpIf false t = .next s.advance := rfl

/-- The rule of a jump follows from its condition. -/
theorem jumpRule_of_jumpIf {jump : Nat → Instr} {taken : State → Bool}
    (h : ∀ t s, exec (jump t) s = s.jumpIf (taken s) t) : Claims.JumpRule jump taken := by
  intro t s
  refine ⟨fun htaken ht => ?_, fun htaken => ?_, fun htaken ht => ?_⟩
  · rw [h, htaken, jumpIf_true]
    exact jumpTo_pos (Nat.one_le_iff_ne_zero.mp ht) _
  · rw [h, htaken]
    exact jumpIf_false t s
  · rw [Claims.FaultsWith, h, htaken, jumpIf_true, ht]
    exact jumpTo_zero s

/-- Settles O22: the rule of a jump whose condition always holds. -/
theorem jumpLandsOnItsTarget : Obligations.JumpLandsOnItsTarget :=
  jumpRule_of_jumpIf fun _ _ => rfl

/-- Settles O23: the rule of a jump whose condition is Z. -/
theorem jumpIfZeroTestsTheZeroFlag : Obligations.JumpIfZeroTestsTheZeroFlag :=
  jumpRule_of_jumpIf fun _ _ => rfl

/-- Settles O24: the rule of a jump whose condition is that Z is false. -/
theorem jumpIfNotZeroTestsTheZeroFlag : Obligations.JumpIfNotZeroTestsTheZeroFlag :=
  jumpRule_of_jumpIf fun _ _ => rfl

/-- Settles O25: the two halves of a jump to another target under any policy, and target 0 under each. -/
theorem jumpPoliciesDifferOnlyAtTargetZero : Obligations.JumpPoliciesDifferOnlyAtTargetZero := fun s _ =>
  ⟨fun ht policy => jumpTo_pos (Nat.one_le_iff_ne_zero.mp ht) policy, jumpTo_zero s, jumpTo_zero_wrap s⟩

end Sys2Proof.Machine

namespace Sys2Proof.Machine

/-! Where a run of a well-formed program can stand (spec/43_output_and_halt.md R102, spec/60_exceptions.md R124). -/

@[simp] theorem operation_toInstr (o : Operation) (r : Record) : (o.toInstr r).operation = o := by
  cases o with
  | arith op => cases op <;> rfl
  | _ => rfl

/-- The instruction a record decodes to is of the operation its opcode numbers. -/
theorem opcode_of_decode {r : Record} {i : Instr} (h : r.decode = .ok i) : r.opcode = i.operation.opcode := by
  unfold Record.decode at h
  split at h
  · cases h
    rw [operation_toInstr]
    exact (opcode_of_ofOpcode ‹_›).symm
  · cases h

/-- A justified fault is one of the first three. -/
theorem code_of_justified {f : Fault} {s : State} (h : f.justified s) : 1 ≤ f.code ∧ f.code ≤ 3 := by
  cases f with
  | illegalOpcode v => exact h.elim
  | _ => simp [Fault.code]

/-- A run of a well-formed program meets the invariant at every moment. -/
theorem inv_of_runsTo_load {p : List Record} {k : Nat} {t : State}
    (hp : programWellFormed Config.fw Config.pcw p = true) (h : (State.load p).runsTo k t) :
    t.Inv Config.fw Config.pcw :=
  runsTo_keeps (stepKeepsTheInvariant _ _ (by decide) (by decide))
    (resetMeetsTheInvariant.1 _ _ Flags.reset p hp (by decide)) h

/-- Settles O46: the invariant, read off status by status; the program is the one loaded. -/
theorem runOfAWellFormedProgramEndsInThreeWays : Obligations.RunOfAWellFormedProgramEndsInThreeWays := by
  intro p k t hp hrun
  have hinv := inv_of_runsTo_load hp hrun
  have hprog : t.prog = p := programIsNeverChanged.1 k _ t hrun
  have hnotice : t.status ≠ .halted → OutEvent.haltNotice ∉ t.output := hinv.notice_only_when_halted
  cases hst : t.status with
  | running => exact hnotice (by simp [hst])
  | halted =>
    obtain ⟨hout, r, hr, hd⟩ := hinv.halted_at_end hst
    exact ⟨hout, r, hprog ▸ hr, opcode_of_decode hd⟩
  | exhausted => exact ⟨hprog ▸ hinv.exhausted_past_end hst, hnotice (by simp [hst])⟩
  | faulted f =>
    obtain ⟨hpc, hf⟩ := hinv.faulted_why f hst
    exact ⟨hprog ▸ hpc, hnotice (by simp [hst]), code_of_justified hf⟩

/-! PRINT and END (spec/43_output_and_halt.md R100, R101). -/

theorem faultOf_print_none {d : Nat} {s : State} : faultOf (.print d) s = none ↔ d < 8 := by
  simp [faultOf]

theorem exec_print_fault {d : Nat} (hd : 8 ≤ d) (s : State) :
    exec (.print d) s = .next (s.raise (.outOfRangeRegister d)) :=
  exec_fault (if_pos hd)

theorem effectOf_print {d : Nat} (hd : d < 8) (s : State) :
    effectOf (.print d) s = (s.emit (.out (s.reg ⟨d, hd⟩))).advance := by
  rw [effectOf, regIdx_eq hd]

/-- Settles O26: the event and the increment where the check of `dst` passes; else the fault of that check. -/
theorem printAppendsTheRegister : Obligations.PrintAppendsTheRegister := fun _ s =>
  ⟨fun hd => (exec_ok (faultOf_print_none.mpr hd)).trans (congrArg _ (effectOf_print hd s)),
    fun hd => exec_print_fault hd s⟩

/-- Settles O27: END has no check to fail, and its effect is the notice and the status. -/
theorem endHaltsWithANotice : Obligations.EndHaltsWithANotice := fun s =>
  exec_ok (rfl : faultOf .endRun s = none)

end Sys2Proof.Machine

namespace Sys2Proof.Machine

/-! The faults of an instruction (spec/60_exceptions.md R105 to R112, R124). -/

/-- No effect is a fault: END sets Halted, and every other instruction keeps the status. -/
theorem effectOf_keeps_notFaulted (i : Instr) {s : State} (hs : s.notFaulted) : (effectOf i s).notFaulted := by
  intro f hf
  by_cases hi : i = .endRun
  · subst hi
    cases hf
  · exact hs f (effectOf_status hi s ▸ hf)

/-- An instruction that answers a Faulted state from one that is not has raised the fault of its failing check. -/
theorem exec_faulted {i : Instr} {s t : State} {f : Fault} (hs : s.notFaulted) (h : exec i s = .next t)
    (hf : t.status = .faulted f) : faultOf i s = some f ∧ t = s.raise f := by
  rcases exec_next h with ⟨g, hg, rfl⟩ | ⟨-, rfl⟩
  · cases hf
    exact ⟨hg, rfl⟩
  · exact absurd hf (effectOf_keeps_notFaulted i hs f)

/-- Settles O42: the Faulted state is the old one with the fault raised, which sets the status alone. -/
theorem faultsChangeOnlyTheStatus : Obligations.FaultsChangeOnlyTheStatus := fun _ _ _ _ hs h hf =>
  (exec_faulted hs h hf).2

/-- The table's row for the six arithmetic sub-operations. -/
theorem mayRaise_arithInstr (op : AluOp) (d l r k : Nat) (s : State) :
    Claims.mayRaise (Claims.arithInstr op d l r) s (.outOfRangeRegister k) ↔ k > 7 ∧ (k = l ∨ k = r ∨ k = d) := by
  cases op <;> rfl

/-- The fault of an instruction's first failing check is one that the table gives it (spec/60_exceptions.md R124). -/
theorem mayRaise_of_faultOf {i : Instr} {s : State} {f : Fault} (h : faultOf i s = some f) :
    Claims.mayRaise i s f := by
  cases i using instr_cases with
  | arith op d l r =>
    obtain ⟨k, rfl, hk⟩ := arithFault_some (faultOf_arithInstr op d l r s ▸ h)
    exact (mayRaise_arithInstr op d l r k s).mpr hk
  | move d _ | print d =>
    obtain ⟨hd, ⟨⟩⟩ := Option.ite_none_right_eq_some.mp h
    exact And.intro hd rfl
  | endRun => cases h
  | store a l =>
    simp only [faultOf] at h
    split at h
    · cases h
      exact And.intro ‹8 ≤ l› rfl
    · obtain ⟨ha, ⟨⟩⟩ := Option.ite_none_right_eq_some.mp h
      exact And.intro ha rfl
  | load d a =>
    simp only [faultOf] at h
    split at h
    · cases h
      exact And.intro ‹256 ≤ a› rfl
    · obtain ⟨hd, ⟨⟩⟩ := Option.ite_none_right_eq_some.mp h
      exact And.intro hd rfl
  | jumpIfZero t =>
    obtain ⟨rfl, hz, ht⟩ := jumpFault_some h
    exact And.intro ht ⟨hz, rfl⟩
  | jumpIfNotZero t =>
    obtain ⟨rfl, hz, ht⟩ := jumpFault_some h
    exact And.intro ht ⟨by simpa using hz, rfl⟩
  | jump t =>
    obtain ⟨rfl, -, ht⟩ := jumpFault_some h
    exact And.intro ht rfl

/-- Settles O43: the fault recorded is the one the instruction's checks name, which the table gives it. -/
theorem eachFaultHasItsCause : Obligations.EachFaultHasItsCause := fun _ _ _ _ hs h hf =>
  mayRaise_of_faultOf (exec_faulted hs h hf).1

end Sys2Proof.Machine

namespace Sys2Proof.Machine

/-! Reset and the first step after it (spec/70_reset_and_hazards.md R125 to R127). -/

/-- A reset between two instructions is the loading of the program that stands there. -/
theorem resetNow_eq_load (s : State) : s.resetNow = State.load s.prog := rfl

/-- Loading a program places it in the reset state and sets nothing else. -/
theorem load_eq_reset (p : List Record) : State.load p = { State.reset with prog := p } := rfl

/-- A loaded machine fetches at index 0. -/
theorem load_fetched (p : List Record) : (State.load p).prog[(State.load p).pc]? = p[0]? := rfl

/-- Settles O2: a reset loads the program anew, and a load places it in the reset state. -/
theorem resetKeepsOnlyTheProgram : Obligations.ResetKeepsOnlyTheProgram := fun s =>
  (resetNow_eq_load s).trans (load_eq_reset s.prog)

/-- Settles O3: the loaded machine is Running and fetches at index 0, where the first record stands, or none. -/
theorem firstStepFetchesIndexZero : Obligations.FirstStepFetchesIndexZero :=
  ⟨fun r p _ hd => step_runs rfl ((load_fetched (r :: p)).trans List.getElem?_cons_zero) hd,
    step_exhausted rfl ((load_fetched []).trans List.getElem?_nil)⟩

end Sys2Proof.Machine
